-- ==== Sys2Proof/Word.lean ====
section
/-! DEFINITION. The word and the character: the two widths every value of the LC-3 CORE has. -/

namespace Sys2Proof

/-- A word: the width of every register, memory cell, address and instruction (`WORD_BITS` and `ADDR_BITS`,
`00_scope.md` rules R5, R6). Bit 15 is the most significant. -/
abbrev Word := BitVec 16

/-- A character on the input and output channels (`CHAR_BITS`, `00_scope.md` rule R5, `45_trap.md` rule R159). -/
abbrev Byte := BitVec 8

end Sys2Proof
end

