-- ==== Sys2Proof/Syntax.lean ====
section
/-! DEFINITION. The instructions: one constructor for each of the 25 rows of `spec/opcode_table.json`, in the table's order. -/

namespace Sys2Proof

/-- The index of a general register, the 3-bit field of an instruction (`10_state.md` rule R20). -/
abbrev RegId := BitVec 3

/-- An instruction with its fields (`30_encoding.md` rules R72, R73). The bits the core ignores (rule R77) are not kept,
except in the three illegal rows, whose whole word goes into the fault record (`60_exceptions.md` rule R181). -/
inductive Instr where
  /-- BR, rule R120: condition mask (n, z, p) and PCoffset9. -/
  | br (nzp : BitVec 3) (off : BitVec 9)
  /-- ADD, register form, rule R110. -/
  | addReg (dr sr1 sr2 : RegId)
  /-- ADD, immediate form, rule R111. -/
  | addImm (dr sr1 : RegId) (imm : BitVec 5)
  /-- LD, rule R130. -/
  | ld (dr : RegId) (off : BitVec 9)
  /-- ST, rule R140. -/
  | st (sr : RegId) (off : BitVec 9)
  /-- JSR, rule R122. -/
  | jsr (off : BitVec 11)
  /-- JSRR, rule R123. -/
  | jsrr (base : RegId)
  /-- AND, register form, rule R112. -/
  | andReg (dr sr1 sr2 : RegId)
  /-- AND, immediate form, rule R113. -/
  | andImm (dr sr1 : RegId) (imm : BitVec 5)
  /-- LDR, rule R132. -/
  | ldr (dr base : RegId) (off : BitVec 6)
  /-- STR, rule R142. -/
  | str (sr base : RegId) (off : BitVec 6)
  /-- RTI (illegal), rule R170. -/
  | rti (ignored : BitVec 12)
  /-- NOT, rule R114. -/
  | not (dr sr : RegId)
  /-- LDI, rule R131. -/
  | ldi (dr : RegId) (off : BitVec 9)
  /-- STI, rule R141. -/
  | sti (sr : RegId) (off : BitVec 9)
  /-- JMP, and RET when the base register is R7, rule R121. -/
  | jmp (base : RegId)
  /-- The reserved opcode (illegal), rule R171. -/
  | reserved (ignored : BitVec 12)
  /-- LEA, rule R133. -/
  | lea (dr : RegId) (off : BitVec 9)
  /-- TRAP 0x20, GETC, rule R151. -/
  | trapGetc
  /-- TRAP 0x21, OUT, rule R152. -/
  | trapOut
  /-- TRAP 0x22, PUTS, rule R153. -/
  | trapPuts
  /-- TRAP 0x23, IN, rule R154. -/
  | trapIn
  /-- TRAP 0x24, PUTSP, rule R155. -/
  | trapPutsp
  /-- TRAP 0x25, HALT, rule R156. -/
  | trapHalt
  /-- TRAP with any other vector (illegal), rule R157: the ignored bits 11 to 8 and the vector. -/
  | trapUndefined (ignored : BitVec 4) (vect : BitVec 8)
  deriving DecidableEq, Repr

end Sys2Proof
end

