-- ==== Sys2Proof/WellFormed.lean ====
section
/-! DEFINITION. Which terms of `Instr` stand for an instruction word. Every field has its exact width in its type, so one check is
left: the catch-all TRAP row matches only a vector that none of the six service rows matches (`30_encoding.md` rule R81). -/

namespace Sys2Proof

/-- The six vectors that name a service (`30_encoding.md` rule R76): 0x20 to 0x25. -/
def isServiceVector (vect : BitVec 8) : Bool :=
  decide (0x20 ≤ vect.toNat) && decide (vect.toNat ≤ 0x25)

/-- The instruction is the meaning of some word: a TRAP without a service names no service's vector. -/
def Instr.wellFormed : Instr → Bool
  | .trapUndefined _ vect => !isServiceVector vect
  | .br _ _ | .addReg _ _ _ | .addImm _ _ _ | .ld _ _ | .st _ _ | .jsr _ | .jsrr _ | .andReg _ _ _ | .andImm _ _ _
  | .ldr _ _ _ | .str _ _ _ | .rti _ | .not _ _ | .ldi _ _ | .sti _ _ | .jmp _ | .reserved _ | .lea _ _
  | .trapGetc | .trapOut | .trapPuts | .trapIn | .trapPutsp | .trapHalt => true

end Sys2Proof
end

