-- ==== Sys2Proof/Decode.lean ====
section
/-! DEFINITION. Decoding a word and encoding an instruction (`30_encoding.md`). Decoding is total: every one of the 65,536 words
selects one row of the opcode table (rule R81), so no word is rejected; the illegal words decode to the three illegal rows. -/

namespace Sys2Proof

/-- The sixteen opcodes (`30_encoding.md` rule R75). -/
inductive Opcode where
  | br | add | ld | st | jsr | and | ldr | str | rti | not | ldi | sti | jmp | reserved | lea | trap
  deriving DecidableEq, Repr

/-- The opcode map of rule R75, bit 15 first (the numbers are decision D1). -/
def opcodeOf (op : BitVec 4) : Opcode :=
  match op[3], op[2], op[1], op[0] with
  | false, false, false, false => .br
  | false, false, false, true  => .add
  | false, false, true,  false => .ld
  | false, false, true,  true  => .st
  | false, true,  false, false => .jsr
  | false, true,  false, true  => .and
  | false, true,  true,  false => .ldr
  | false, true,  true,  true  => .str
  | true,  false, false, false => .rti
  | true,  false, false, true  => .not
  | true,  false, true,  false => .ldi
  | true,  false, true,  true  => .sti
  | true,  true,  false, false => .jmp
  | true,  true,  false, true  => .reserved
  | true,  true,  true,  false => .lea
  | true,  true,  true,  true  => .trap

/-- The field `ir[11:9]`: DR, the stores' SR, or BR's mask (rule R73). -/
def field11to9 (ir : Word) : BitVec 3 := ir.extractLsb' 9 3

/-- The field `ir[8:6]`: SR1, NOT's SR, or BaseR (rule R73). -/
def field8to6 (ir : Word) : BitVec 3 := ir.extractLsb' 6 3

/-- The field `ir[2:0]`: SR2 (rule R73). -/
def field2to0 (ir : Word) : BitVec 3 := ir.extractLsb' 0 3

/-- The field `ir[8:0]`: PCoffset9 (rule R73). -/
def field8to0 (ir : Word) : BitVec 9 := ir.extractLsb' 0 9

/-- The trap dispatch on `ir[7:0]` (`30_encoding.md` rule R76, `45_trap.md` rule R150; the numbers are decision D5). -/
def decodeTrap (ir : Word) : Instr :=
  let vect : BitVec 8 := ir.extractLsb' 0 8
  if vect = 0x20#8 then .trapGetc
  else if vect = 0x21#8 then .trapOut
  else if vect = 0x22#8 then .trapPuts
  else if vect = 0x23#8 then .trapIn
  else if vect = 0x24#8 then .trapPutsp
  else if vect = 0x25#8 then .trapHalt
  else .trapUndefined (ir.extractLsb' 8 4) vect

/-- The instruction a word stands for: the dispatch of `40_cycle.md` rule R103 with the fields of `30_encoding.md` rule R72. -/
def decode (ir : Word) : Instr :=
  match opcodeOf (ir.extractLsb' 12 4) with
  | .br => .br (field11to9 ir) (field8to0 ir)
  | .add =>
    if ir[5] then .addImm (field11to9 ir) (field8to6 ir) (ir.extractLsb' 0 5)
    else .addReg (field11to9 ir) (field8to6 ir) (field2to0 ir)
  | .ld => .ld (field11to9 ir) (field8to0 ir)
  | .st => .st (field11to9 ir) (field8to0 ir)
  | .jsr => if ir[11] then .jsr (ir.extractLsb' 0 11) else .jsrr (field8to6 ir)
  | .and =>
    if ir[5] then .andImm (field11to9 ir) (field8to6 ir) (ir.extractLsb' 0 5)
    else .andReg (field11to9 ir) (field8to6 ir) (field2to0 ir)
  | .ldr => .ldr (field11to9 ir) (field8to6 ir) (ir.extractLsb' 0 6)
  | .str => .str (field11to9 ir) (field8to6 ir) (ir.extractLsb' 0 6)
  | .rti => .rti (ir.extractLsb' 0 12)
  | .not => .not (field11to9 ir) (field8to6 ir)
  | .ldi => .ldi (field11to9 ir) (field8to0 ir)
  | .sti => .sti (field11to9 ir) (field8to0 ir)
  | .jmp => .jmp (field8to6 ir)
  | .reserved => .reserved (ir.extractLsb' 0 12)
  | .lea => .lea (field11to9 ir) (field8to0 ir)
  | .trap => decodeTrap ir

/-- The word of an instruction, from the formats of `30_encoding.md` rule R72, an ignored bit at its canonical value
(rule R77: 0, but 1 in NOT's `ir[5:0]`). -/
def encode : Instr → Word
  | .br nzp off => 0b0000#4 ++ nzp ++ off
  | .addReg dr sr1 sr2 => 0b0001#4 ++ dr ++ sr1 ++ 0b000#3 ++ sr2
  | .addImm dr sr1 imm => 0b0001#4 ++ dr ++ sr1 ++ 0b1#1 ++ imm
  | .ld dr off => 0b0010#4 ++ dr ++ off
  | .st sr off => 0b0011#4 ++ sr ++ off
  | .jsr off => 0b0100#4 ++ 0b1#1 ++ off
  | .jsrr base => 0b0100#4 ++ 0b000#3 ++ base ++ 0b000000#6
  | .andReg dr sr1 sr2 => 0b0101#4 ++ dr ++ sr1 ++ 0b000#3 ++ sr2
  | .andImm dr sr1 imm => 0b0101#4 ++ dr ++ sr1 ++ 0b1#1 ++ imm
  | .ldr dr base off => 0b0110#4 ++ dr ++ base ++ off
  | .str sr base off => 0b0111#4 ++ sr ++ base ++ off
  | .rti ignored => 0b1000#4 ++ ignored
  | .not dr sr => 0b1001#4 ++ dr ++ sr ++ 0b111111#6
  | .ldi dr off => 0b1010#4 ++ dr ++ off
  | .sti sr off => 0b1011#4 ++ sr ++ off
  | .jmp base => 0b1100#4 ++ 0b000#3 ++ base ++ 0b000000#6
  | .reserved ignored => 0b1101#4 ++ ignored
  | .lea dr off => 0b1110#4 ++ dr ++ off
  | .trapGetc => 0b1111#4 ++ 0b0000#4 ++ 0x20#8
  | .trapOut => 0b1111#4 ++ 0b0000#4 ++ 0x21#8
  | .trapPuts => 0b1111#4 ++ 0b0000#4 ++ 0x22#8
  | .trapIn => 0b1111#4 ++ 0b0000#4 ++ 0x23#8
  | .trapPutsp => 0b1111#4 ++ 0b0000#4 ++ 0x24#8
  | .trapHalt => 0b1111#4 ++ 0b0000#4 ++ 0x25#8
  | .trapUndefined ignored vect => 0b1111#4 ++ ignored ++ vect

/-- The instruction the decoder reads from the bits `w` of an opcode-table row of `nbits` bits. An instruction is one word
(rule R70), so a longer row would be none. -/
def decodeTableWord (nbits w : Nat) : Option Instr :=
  if nbits ≤ 16 then some (decode (BitVec.ofNat 16 (w % 2 ^ nbits))) else none

end Sys2Proof
end

