-- ==== Sys2Proof/Config.lean ====
section
/-! DEFINITION. The parameters of `00_scope.md` rule R5 that the spec fixes for good. The parameters it decides with a default
(`TRAP_LINKS_R7`, `IN_PROMPT`, `HALT_MESSAGE`) stand in `Sys2Proof/Machine/Params.lean`. -/

namespace Sys2Proof

/-- `MEM_CELLS`: the number of memory cells (`10_state.md` rule R26). -/
def Config.memCells : Nat := 65536

/-- `PC_START`: the program counter at reset (`10_state.md` rule R31). -/
def Config.pcStart : Word := 0x3000#16

/-- `KBSR_ADDR`: the keyboard-status register (`20_memory.md` rules R43, R47; decision D7). -/
def Config.kbsrAddr : Word := 0xFE00#16

/-- `KBDR_ADDR`: the keyboard-data register (`20_memory.md` rules R44, R47; decision D7). -/
def Config.kbdrAddr : Word := 0xFE02#16

end Sys2Proof
end

