-- ==== Sys2Proof/Machine/State.lean ====
section
/-! DEFINITION. The state of the machine (the tuple at the head of `10_state.md`), the reasons a step can stop, and the state after
reset. All of it is plain data. -/

namespace Sys2Proof.Machine

open Sys2Proof

/-- Why the machine faulted: the three symbolic causes of IllegalOpcode (`60_exceptions.md` rule R180). -/
inductive Cause where
  /-- Opcode 1000. -/
  | rti
  /-- Opcode 1101. -/
  | reserved
  /-- A TRAP whose vector names no service. -/
  | badTrapVector
  deriving DecidableEq, Repr

/-- RUN, the Dispatcher's state (`10_state.md` rule R25). -/
inductive Run where
  | running
  | halted
  /-- After IllegalOpcode: the cause, the address the word was fetched from, and the word (`60_exceptions.md` rule R181). -/
  | faulted (cause : Cause) (addr instr : Word)
  deriving DecidableEq, Repr

/-- An instruction that has begun and not completed: a *held* instruction, which waits for a character (`40_cycle.md`
rule R104), or a string service that has read its cells of one step (`scanTrip`) and goes on (`45_trap.md` rule R153). Each
constructor names the operation that is issued again, with its operands. A fetch that waits has changed nothing yet and
needs no constructor. -/
inductive Held where
  /-- The data read of LD, LDR, or the second read of LDI, at address `ea`. -/
  | load (dr : RegId) (ea : Word)
  /-- The pointer read of LDI at address `pa`. -/
  | loadIndirect (dr : RegId) (pa : Word)
  /-- The pointer read of STI at address `pa`. -/
  | storeIndirect (sr : RegId) (pa : Word)
  /-- The input of GETC. -/
  | getc
  /-- The input of IN, whose prompt is already written. -/
  | inEcho
  /-- The read of PUTS at the cell `p`. -/
  | puts (p : Word)
  /-- The read of PUTSP at the cell `p`. -/
  | putsp (p : Word)
  deriving DecidableEq, Repr

/-- MEM as data: the cells that do not read as `Memory.unlisted`, as (address, cell) pairs. The canonical form is
`Memory.wf`. DESIGN CHOICE, safe (log 1): the unit is the 16-bit cell of `20_memory.md` rule R40, not a byte. -/
abbrev Memory := List (Nat × Word)

/-- The complete state (`10_state.md`). -/
structure State where
  /-- R0 to R7 (rule R20). -/
  regs : Vector Word 8
  /-- PC (rule R21). -/
  pc : Word
  /-- COND: bit 2 = N, bit 1 = Z, bit 0 = P (rule R22). -/
  cond : BitVec 3
  /-- RUN (rule R25). -/
  run : Run
  /-- MEM (rule R26). -/
  mem : Memory
  /-- KBD, the keyboard slot: `none` is empty, `some c` is full(c) (rule R27). -/
  kbd : Option Byte
  /-- OUT, oldest character first (rule R28). -/
  out : List Byte
  /-- The MODEL's field: the instruction in progress (`40_cycle.md` rule R104; log 4). -/
  held : Option Held
  /-- The MODEL's field: the environment's moves still to come, one a step (`10_state.md` rule R27 (c); log 2). `none`: it
  delivers nothing at this step; `some c`: the next character of the input stream is `c`, delivered as soon as the slot
  is empty. -/
  arrivals : List (Option Byte)
  deriving DecidableEq, Repr

/-- Why a step stops with a fault: never. No step of this machine faults: no memory access faults (`20_memory.md` rules R41,
R49, R52), no arithmetic does (`41_alu.md` rule R115), and IllegalOpcode is an ordinary next state whose `run` is `faulted`
(`60_exceptions.md` rule R184; log 6). So nothing raises a fault, which is safe. -/
inductive Fault where
  deriving DecidableEq, Repr

/-- Why a step is refused. -/
inductive Refusal where
  /-- Raised only by `exec`'s arm of an instruction that has no meaning yet; every instruction has one, so nothing raises it.
  Safe: a refusal proves nothing about the hardware. -/
  | notModelled (mnemonic : String)
  deriving DecidableEq, Repr

/-- Reset with its launch arguments: `init_mem` and the environment's moves (`10_state.md` rule R31, `70_reset_and_hazards.md`
rules R200, R201). -/
def State.resetWith (initMem : Memory) (arrivals : List (Option Byte)) : State where
  regs := Vector.replicate 8 0x0000#16
  pc := Config.pcStart
  cond := 0b000#3
  run := .running
  mem := initMem
  kbd := none
  out := []
  held := none
  arrivals := arrivals

/-- The machine right after reset with an `init_mem` of zeros and an environment that delivers nothing. DESIGN CHOICE, unsafe
(logs 2, 3): both are launch arguments of the spec, and a claim about another launch is stated of `State.resetWith`. -/
def State.reset : State := State.resetWith [] []

end Sys2Proof.Machine
end

