-- ==== Sys2Proof/Machine/Memory.lean ====
section
/-! DEFINITION. The plain storage of MEM: reading and writing one cell of the canonical list (`10_state.md` rule R26). The mapped
keyboard registers are intercepted above it, in `Sys2Proof/Machine/Ops.lean`. -/

namespace Sys2Proof.Machine

open Sys2Proof

/-- What a cell the list does not name reads as. An `init_mem` is total, so this is no limit on it (decision D23; log 3). -/
def Memory.unlisted : Word := 0x0000#16

/-- The cell at an address. -/
def Memory.read : Memory → Nat → Word
  | [], _ => Memory.unlisted
  | (b, x) :: m, a => if a = b then x else Memory.read m a

/-- The memory with `v` at the front cell `a`, or without the cell when `v` is what an unlisted address reads as. -/
def Memory.push (a : Nat) (v : Word) (m : Memory) : Memory :=
  if v = Memory.unlisted then m else (a, v) :: m

/-- Write one cell, keeping the canonical form. -/
def Memory.write : Memory → Nat → Word → Memory
  | [], a, v => Memory.push a v []
  | (b, x) :: m, a, v =>
    if a < b then Memory.push a v ((b, x) :: m)
    else if a = b then Memory.push a v m
    else (b, x) :: Memory.write m a v

/-- The canonical form: addresses rise strictly and lie in the address space, and no cell holds what an unlisted address
reads as. -/
abbrev Memory.wf (m : Memory) : Prop :=
  m.Pairwise (fun x y => x.1 < y.1) ∧ ∀ e ∈ m, e.1 < Config.memCells ∧ e.2 ≠ Memory.unlisted

end Sys2Proof.Machine
end

