-- ==== Sys2Proof/Machine/Ops.lean ====
section
/-! DEFINITION. The named operations over the state: one update for each field, the general registers, the character channel, the
two memory primitives with the mapped keyboard registers, and the one exception. -/

namespace Sys2Proof.Machine

open Sys2Proof

/-- Read general register `r`; none is hardwired (`10_state.md` rule R20). -/
def State.reg (s : State) (r : RegId) : Word := s.regs[r.toNat]'r.isLt

/-- Write general register `r` (`10_state.md` rule R20). -/
def State.setReg (s : State) (r : RegId) (v : Word) : State := { s with regs := s.regs.set r.toNat v r.isLt }

/-- Write the program counter (`10_state.md` rule R21). -/
def State.setPc (s : State) (v : Word) : State := { s with pc := v }

/-- Write the condition code (`10_state.md` rule R22). -/
def State.setCond (s : State) (c : BitVec 3) : State := { s with cond := c }

/-- Write the run state (`10_state.md` rule R25). -/
def State.setRun (s : State) (r : Run) : State := { s with run := r }

/-- Replace the plain storage. -/
def State.setMem (s : State) (m : Memory) : State := { s with mem := m }

/-- Write the keyboard slot (`10_state.md` rule R27). -/
def State.setKbd (s : State) (k : Option Byte) : State := { s with kbd := k }

/-- `OutChar` for each character of a list in order: append them to OUT; it never waits and never fails (`10_state.md`
rule R28). -/
def State.emit (s : State) (bs : List Byte) : State := { s with out := s.out ++ bs }

/-- Record the instruction in progress, or that there is none (`40_cycle.md` rule R104). -/
def State.setHeld (s : State) (h : Option Held) : State := { s with held := h }

/-- Set the environment's moves still to come. -/
def State.setArrivals (s : State) (l : List (Option Byte)) : State := { s with arrivals := l }

/-- The stored cell at a 16-bit address. -/
def State.cell (s : State) (a : Word) : Word := s.mem.read a.toNat

/-- Store a cell at a 16-bit address. -/
def State.setCell (s : State) (a v : Word) : State := s.setMem (s.mem.write a.toNat v)

/-- `Deliver(c)`: the environment fills the slot, only when it is empty (`10_state.md` rule R27 (c); decision D9). -/
def State.deliver (s : State) (c : Byte) : State :=
  match s.kbd with
  | none => s.setKbd (some c)
  | some _ => s

/-- The environment's move before a core move: take the next entry of its plan; a character that finds the slot full
stays in the plan, so none is lost, overwritten or reordered (`10_state.md` rule R27, decisions D9, D28; log 2). -/
def State.environment (s : State) : State :=
  match s.arrivals with
  | [] => s
  | none :: rest => s.setArrivals rest
  | some c :: rest =>
    match s.kbd with
    | none => (s.setArrivals rest).deliver c
    | some _ => s

/-- `InChar`: take the character from the slot, or `none` when the slot is empty and the operation waits (`10_state.md`
rule R27 (b)). -/
def State.inChar (s : State) : Option (Byte × State) :=
  match s.kbd with
  | some c => some (c, s.setKbd none)
  | none => none

/-- The value of KBSR: bit 15 says whether a character is available, the other bits are 0 (`20_memory.md` rule R43;
decision D8). -/
def State.kbsr (s : State) : Word :=
  match s.kbd with
  | some _ => 0x8000#16
  | none => 0x0000#16

/-- `zext_N`: a field with zeros above it (`00_scope.md` rule R7). -/
def zext {n : Nat} (f : BitVec n) : Word := f.setWidth 16

/-- `MemRead(addr, 16)` (`20_memory.md` rules R42 to R44): the value and the state after the read, or `none` when the read
waits for a character. -/
def State.memRead (s : State) (a : Word) : Option (Word × State) :=
  if a = Config.kbsrAddr then some (s.kbsr, s)
  else if a = Config.kbdrAddr then
    match s.inChar with
    | some (c, s') => some (zext c, s')
    | none => none
  else some (s.cell a, s)

/-- `MemWrite(addr, 16, v)`: a write to a mapped address changes nothing (`20_memory.md` rules R45, R46). -/
def State.memWrite (s : State) (a v : Word) : State :=
  if a = Config.kbsrAddr ∨ a = Config.kbdrAddr then s else s.setCell a v

/-- `raise IllegalOpcode(cause, addr, instr)`, the machine's one exception: RUN becomes Faulted with the record and nothing
else changes; PC keeps the incremented value (`60_exceptions.md` rules R181, R184). It is issued in the execute phase,
where PC is the address of the instruction plus 1, so the address recorded is PC - 1. There is no return from it
(rule R185): Faulted is terminal. -/
def State.raiseIllegal (s : State) (cause : Cause) (instr : Word) : State :=
  s.setRun (.faulted cause (s.pc - 1#16) instr)

end Sys2Proof.Machine
end

