-- ==== Sys2Proof/Machine/Flags.lean ====
section
/-! DEFINITION. The condition code (`10_state.md` rules R22, R23; the bit assignment is decision D4). -/

namespace Sys2Proof.Machine

open Sys2Proof

/-- The condition code of a 16-bit value: zero, negative or positive (`10_state.md` rule R23). -/
def condOf (v : Word) : BitVec 3 :=
  if v = 0x0000#16 then 0b010#3
  else if v[15] then 0b100#3
  else 0b001#3

/-- `setcc(v)` (`10_state.md` rule R23). -/
def State.setcc (s : State) (v : Word) : State := s.setCond (condOf v)

/-- Write a destination register and set COND from the value written: the end of ADD, AND, NOT, LD, LDI, LDR and LEA
(`10_state.md` rule R23). -/
def State.writeResult (s : State) (dr : RegId) (v : Word) : State := (s.setReg dr v).setcc v

/-- Whether a BR with this mask is taken: mask and COND share a set bit (`42_control.md` rule R120). -/
def State.branchTaken (s : State) (nzp : BitVec 3) : Bool := nzp &&& s.cond != 0b000#3

end Sys2Proof.Machine
end

