-- ==== Sys2Proof/Machine/Operands.lean ====
section
/-! DEFINITION. The operand forms: immediates and effective addresses (`30_encoding.md` rule R74). In every one of them the
state's `pc` is the incremented PC (`40_cycle.md` rule R102). -/

namespace Sys2Proof.Machine

open Sys2Proof

/-- `sext_N`: a field of an instruction as a signed 16-bit value (`00_scope.md` rule R7). -/
def sext {n : Nat} (f : BitVec n) : Word := f.signExtend 16

/-- The PC-relative address of LD, LDI, LEA, ST, STI, and the target of BR and JSR: PC + sext(offset) modulo 65,536. -/
def State.pcRelative {n : Nat} (s : State) (off : BitVec n) : Word := s.pc + sext off

/-- The base + offset address of LDR and STR: R[BaseR] + sext_6(offset6) modulo 65,536. -/
def State.baseOffset (s : State) (base : RegId) (off : BitVec 6) : Word := s.reg base + sext off

end Sys2Proof.Machine
end

