-- ==== Sys2Proof/Machine/Load.lean ====
section
/-! DEFINITION. LD, LDI, LDR and LEA (`43_load.md`). A read that waits for a character leaves the instruction held
(`40_cycle.md` rule R104); the same operation is issued again when it goes on. -/

namespace Sys2Proof.Machine

open Sys2Proof

/-- The data read of a load: `v <- MemRead(ea)`, `R[DR] <- v`, `setcc(v)`. -/
def State.load (s : State) (dr : RegId) (ea : Word) : State :=
  match s.memRead ea with
  | some (v, s') => s'.writeResult dr v
  | none => s.setHeld (some (.load dr ea))

/-- The two reads of LDI: the pointer at `pa`, then the operand (`43_load.md` rule R131). -/
def State.loadIndirect (s : State) (dr : RegId) (pa : Word) : State :=
  match s.memRead pa with
  | some (p, s') => s'.load dr p
  | none => s.setHeld (some (.loadIndirect dr pa))

/-- LD (`43_load.md` rule R130). -/
def execLd (dr : RegId) (off : BitVec 9) (s : State) : Host.Outcome State Fault Refusal :=
  .next (s.load dr (s.pcRelative off))

/-- LDI (`43_load.md` rule R131). -/
def execLdi (dr : RegId) (off : BitVec 9) (s : State) : Host.Outcome State Fault Refusal :=
  .next (s.loadIndirect dr (s.pcRelative off))

/-- LDR (`43_load.md` rule R132). -/
def execLdr (dr base : RegId) (off : BitVec 6) (s : State) : Host.Outcome State Fault Refusal :=
  .next (s.load dr (s.baseOffset base off))

/-- LEA (`43_load.md` rule R133): it reads no memory, and it sets COND. -/
def execLea (dr : RegId) (off : BitVec 9) (s : State) : Host.Outcome State Fault Refusal :=
  .next (s.writeResult dr (s.pcRelative off))

end Sys2Proof.Machine
end

