-- ==== Sys2Proof/Machine/Store.lean ====
section
/-! DEFINITION. ST, STI, STR (`44_store.md`). -/

namespace Sys2Proof.Machine

open Sys2Proof

/-- The pointer read at `pa` and the write of STI (`44_store.md` rule R141). -/
def State.storeIndirect (s : State) (sr : RegId) (pa : Word) : State :=
  match s.memRead pa with
  | some (p, s') => s'.memWrite p (s'.reg sr)
  | none => s.setHeld (some (.storeIndirect sr pa))

/-- ST (`44_store.md` rule R140). -/
def execSt (sr : RegId) (off : BitVec 9) (s : State) : Host.Outcome State Fault Refusal :=
  .next (s.memWrite (s.pcRelative off) (s.reg sr))

/-- STI (`44_store.md` rule R141). -/
def execSti (sr : RegId) (off : BitVec 9) (s : State) : Host.Outcome State Fault Refusal :=
  .next (s.storeIndirect sr (s.pcRelative off))

/-- STR (`44_store.md` rule R142). -/
def execStr (sr base : RegId) (off : BitVec 6) (s : State) : Host.Outcome State Fault Refusal :=
  .next (s.memWrite (s.baseOffset base off) (s.reg sr))

end Sys2Proof.Machine
end

