-- ==== Sys2Proof/Machine/Control.lean ====
section
/-! DEFINITION. BR, JMP, JSR, JSRR (`42_control.md`). -/

namespace Sys2Proof.Machine

open Sys2Proof

/-- The link register R7 (`42_control.md` rule R124 (c)). -/
def linkReg : RegId := 7#3

/-- BR (`42_control.md` rule R120). -/
def execBr (nzp : BitVec 3) (off : BitVec 9) (s : State) : Host.Outcome State Fault Refusal :=
  .next (if s.branchTaken nzp then s.setPc (s.pcRelative off) else s)

/-- JMP, and RET when the base register is R7 (`42_control.md` rule R121). -/
def execJmp (base : RegId) (s : State) : Host.Outcome State Fault Refusal :=
  .next (s.setPc (s.reg base))

/-- Write the return address, the incremented PC, to R7. -/
def State.link (s : State) : State := s.setReg linkReg s.pc

/-- JSR (`42_control.md` rule R122). -/
def execJsr (off : BitVec 11) (s : State) : Host.Outcome State Fault Refusal :=
  .next (s.link.setPc (s.link.pcRelative off))

/-- JSRR (`42_control.md` rule R123): R7 is written first and the base register read after, so `JSRR R7` goes to the next
instruction (conflict C11, decision D21; log 10). -/
def execJsrr (base : RegId) (s : State) : Host.Outcome State Fault Refusal :=
  .next (s.link.setPc (s.link.reg base))

end Sys2Proof.Machine
end

