-- ==== Sys2Proof/Machine/Params.lean ====
section
/-! DEFINITION. The parameters of `00_scope.md` rule R5 that the spec decides with a default. They stand here, and not in
`Sys2Proof/Config.lean`, because a test of the hardware could show another value. -/

namespace Sys2Proof.Machine

open Sys2Proof

/-- `TRAP_LINKS_R7`: whether a recognised TRAP writes the incremented PC to R7 first (`45_trap.md` rule R158; decision D15:
false). UNVERIFIED, unsafe (log 9). -/
def trapLinksR7 : Bool := false

/-- `IN_PROMPT`: the ASCII bytes of "Enter a character: " (`45_trap.md` rule R154; decision D17). UNVERIFIED, unsafe (log 8). -/
def inPrompt : List Byte :=
  [0x45#8, 0x6E#8, 0x74#8, 0x65#8, 0x72#8, 0x20#8, 0x61#8, 0x20#8, 0x63#8, 0x68#8,
   0x61#8, 0x72#8, 0x61#8, 0x63#8, 0x74#8, 0x65#8, 0x72#8, 0x3A#8, 0x20#8]

/-- `HALT_MESSAGE`: the ASCII bytes of "HALT" and 0x0A (`45_trap.md` rule R156; decision D17). UNVERIFIED, unsafe (log 8). -/
def haltMessage : List Byte := [0x48#8, 0x41#8, 0x4C#8, 0x54#8, 0x0A#8]

/-- How many cells a string service that stands at the cell `p` reads in one step before it goes on in the next: one trip
round the memory; but a trip that begins behind KBSR, and so takes the character at KBDR first, ends where it comes to
KBSR, so that the environment can deliver before that read. DESIGN CHOICE, safe (log 5). -/
def scanTrip (p : Word) : Nat :=
  if Config.kbsrAddr < p ∧ p ≤ Config.kbdrAddr then (Config.kbsrAddr - p).toNat else Config.memCells

end Sys2Proof.Machine
end

