-- ==== Sys2Proof/Machine/Trap.lean ====
section
/-! DEFINITION. TRAP and its services (`45_trap.md`), each performed whole by the core, and TRAP with an unrecognised vector. -/

namespace Sys2Proof.Machine

open Sys2Proof

/-- The argument and result register of the services, R0 (`42_control.md` rule R124 (f)). -/
def trapReg : RegId := 0#3

/-- What a recognised TRAP does before its service: write R7 if `TRAP_LINKS_R7` is true (`45_trap.md` rule R158 (b)). -/
def State.trapEntry (s : State) : State := if trapLinksR7 then s.link else s

/-- The input of GETC: take a character into R0, zero-extended (`45_trap.md` rule R151). -/
def State.getc (s : State) : State :=
  match s.inChar with
  | some (c, s') => s'.setReg trapReg (zext c)
  | none => s.setHeld (some .getc)

/-- The input of IN: take a character, echo it, and put it into R0, zero-extended (`45_trap.md` rule R154). -/
def State.inEcho (s : State) : State :=
  match s.inChar with
  | some (c, s') => (s'.emit [c]).setReg trapReg (zext c)
  | none => s.setHeld (some .inEcho)

/-- The characters PUTS writes for one cell: its low byte (`45_trap.md` rule R153). -/
def putsChars (w : Word) : List Byte := [w.extractLsb' 0 8]

/-- The characters PUTSP writes for one cell: its low byte, then its high byte unless that is 0 (`45_trap.md` rule R155). -/
def putspChars (w : Word) : List Byte :=
  if w.extractLsb' 8 8 = 0x00#8 then [w.extractLsb' 0 8] else [w.extractLsb' 0 8, w.extractLsb' 8 8]

/-- The loop of PUTS and PUTSP (`45_trap.md` rules R153, R155), at most `n` cells of it, from the cell `p`: read the cell
through `MemRead`, stop at a zero cell, write the cell's characters, go to the next cell modulo 65,536. A read that waits
leaves the service held at that cell (`40_cycle.md` rule R104); so does the end of the `n` cells, and the service goes on
in the next step (log 5). -/
def State.scan (chars : Word → List Byte) (again : Word → Held) : Nat → Word → State → State
  | 0, p, s => s.setHeld (some (again p))
  | n + 1, p, s =>
    match s.memRead p with
    | none => s.setHeld (some (again p))
    | some (w, s') => if w = 0x0000#16 then s' else State.scan chars again n (p + 1#16) (s'.emit (chars w))

/-- The loop of PUTS from the cell `p`. -/
def State.puts (s : State) (p : Word) : State := State.scan putsChars .puts (scanTrip p) p s

/-- The loop of PUTSP from the cell `p`. -/
def State.putsp (s : State) (p : Word) : State := State.scan putspChars .putsp (scanTrip p) p s

/-- TRAP 0x20, GETC (`45_trap.md` rule R151). -/
def execTrapGetc (s : State) : Host.Outcome State Fault Refusal := .next s.trapEntry.getc

/-- TRAP 0x21, OUT (`45_trap.md` rule R152). -/
def execTrapOut (s : State) : Host.Outcome State Fault Refusal :=
  .next (s.trapEntry.emit [(s.trapEntry.reg trapReg).extractLsb' 0 8])

/-- TRAP 0x22, PUTS (`45_trap.md` rule R153). -/
def execTrapPuts (s : State) : Host.Outcome State Fault Refusal :=
  .next (s.trapEntry.puts (s.trapEntry.reg trapReg))

/-- TRAP 0x23, IN (`45_trap.md` rule R154): the prompt is written even if the input then waits. -/
def execTrapIn (s : State) : Host.Outcome State Fault Refusal :=
  .next (s.trapEntry.emit inPrompt).inEcho

/-- TRAP 0x24, PUTSP (`45_trap.md` rule R155). -/
def execTrapPutsp (s : State) : Host.Outcome State Fault Refusal :=
  .next (s.trapEntry.putsp (s.trapEntry.reg trapReg))

/-- TRAP 0x25, HALT (`45_trap.md` rule R156). -/
def execTrapHalt (s : State) : Host.Outcome State Fault Refusal :=
  .next ((s.trapEntry.emit haltMessage).setRun .halted)

/-- TRAP with an unrecognised vector (`45_trap.md` rule R157): IllegalOpcode(BadTrapVector). -/
def execTrapUndefined (ignored : BitVec 4) (vect : BitVec 8) (s : State) : Host.Outcome State Fault Refusal :=
  .next (s.raiseIllegal .badTrapVector (encode (.trapUndefined ignored vect)))

end Sys2Proof.Machine
end

