-- ==== Sys2Proof/Machine/Cycle.lean ====
section
/-! DEFINITION. The parts of a cycle around the execute phase: fetch and increment, and going on with a held instruction
(`40_cycle.md`). -/

namespace Sys2Proof.Machine

open Sys2Proof

/-- Fetch and increment (`40_cycle.md` rules R101, R102): the word at PC, read with `MemRead`, and the state with PC + 1
modulo 65,536; `none` when the fetch waits for a character. -/
def State.fetch (s : State) : Option (Word × State) :=
  match s.memRead s.pc with
  | some (ir, s') => some (ir, s'.setPc (s'.pc + 1#16))
  | none => none

/-- Go on with an instruction in progress (`40_cycle.md` rule R104): issue its waiting operation again. It is held again,
in the same way, when there is still no character. -/
def State.resume (s : State) (h : Held) : State :=
  match h with
  | .load dr ea => (s.setHeld none).load dr ea
  | .loadIndirect dr pa => (s.setHeld none).loadIndirect dr pa
  | .storeIndirect sr pa => (s.setHeld none).storeIndirect sr pa
  | .getc => (s.setHeld none).getc
  | .inEcho => (s.setHeld none).inEcho
  | .puts p => (s.setHeld none).puts p
  | .putsp p => (s.setHeld none).putsp p

/-- The address the next instruction is fetched from, but an ordinary one: a word placed behind a keyboard register is
never fetched (`10_state.md` rule R26). -/
def State.fetchAddr (s : State) : Word :=
  if s.pc = Config.kbsrAddr ∨ s.pc = Config.kbdrAddr then Config.pcStart else s.pc

end Sys2Proof.Machine
end

