-- ==== Sys2Proof/Machine/Alu.lean ====
section
/-! DEFINITION. ADD, AND, NOT (`41_alu.md`). Sources are read before the destination is written; sums wrap modulo 65,536. -/

namespace Sys2Proof.Machine

open Sys2Proof

/-- ADD, register form (`41_alu.md` rule R110). -/
def execAddReg (dr sr1 sr2 : RegId) (s : State) : Host.Outcome State Fault Refusal :=
  .next (s.writeResult dr (s.reg sr1 + s.reg sr2))

/-- ADD, immediate form (`41_alu.md` rule R111). -/
def execAddImm (dr sr1 : RegId) (imm : BitVec 5) (s : State) : Host.Outcome State Fault Refusal :=
  .next (s.writeResult dr (s.reg sr1 + sext imm))

/-- AND, register form (`41_alu.md` rule R112). -/
def execAndReg (dr sr1 sr2 : RegId) (s : State) : Host.Outcome State Fault Refusal :=
  .next (s.writeResult dr (s.reg sr1 &&& s.reg sr2))

/-- AND, immediate form (`41_alu.md` rule R113). -/
def execAndImm (dr sr1 : RegId) (imm : BitVec 5) (s : State) : Host.Outcome State Fault Refusal :=
  .next (s.writeResult dr (s.reg sr1 &&& sext imm))

/-- NOT (`41_alu.md` rule R114). -/
def execNot (dr sr : RegId) (s : State) : Host.Outcome State Fault Refusal :=
  .next (s.writeResult dr (~~~ s.reg sr))

end Sys2Proof.Machine
end

