-- ==== Sys2Proof/Machine/Illegal.lean ====
section
/-! DEFINITION. RTI and the reserved opcode (`46_illegal.md`): both raise IllegalOpcode. -/

namespace Sys2Proof.Machine

open Sys2Proof

/-- RTI (`46_illegal.md` rule R170): IllegalOpcode(RTI). -/
def execRti (ignored : BitVec 12) (s : State) : Host.Outcome State Fault Refusal :=
  .next (s.raiseIllegal .rti (encode (.rti ignored)))

/-- The reserved opcode (`46_illegal.md` rule R171): IllegalOpcode(Reserved). -/
def execReserved (ignored : BitVec 12) (s : State) : Host.Outcome State Fault Refusal :=
  .next (s.raiseIllegal .reserved (encode (.reserved ignored)))

end Sys2Proof.Machine
end

