-- ==== Sys2Proof/Machine/Step.lean ====
section
/-! DEFINITION. One step of the machine, and how an instruction word is placed for the next step. -/

namespace Sys2Proof.Machine

open Sys2Proof

/-- The core's move while it is running: go on with the instruction in progress, or take a cycle, fetch, increment, decode
and execute (`40_cycle.md` rules R101 to R104). A fetch that waits leaves the state as it is. -/
def coreMove (s : State) : Host.Outcome State Fault Refusal :=
  match s.held with
  | some h => .next (s.resume h)
  | none =>
    match s.fetch with
    | some (ir, s') => exec (decode ir) s'
    | none => .next s

/-- One step: a move of the environment, then a move of the core. When RUN is Halted or Faulted the core takes no cycle and
the state stays as it is (`40_cycle.md` rule R100, `10_state.md` rule R25; log 7). -/
def step (s : State) : Host.Outcome State Fault Refusal :=
  match s.run with
  | .running => coreMove s.environment
  | .halted => .next s
  | .faulted _ _ _ => .next s

/-- The state with the instruction word `w` placed where `step` fetches next, running and with no instruction in progress. A
word cannot be placed behind a keyboard register, so a PC that stands on one is moved to the start address. The bits of
`w` above `nbits` are 0; an instruction is one word. -/
def State.withFetchWord (s : State) (nbits w : Nat) : State :=
  (((s.setRun .running).setHeld none).setPc s.fetchAddr).setCell s.fetchAddr (BitVec.ofNat 16 (w % 2 ^ nbits))

end Sys2Proof.Machine
end

