-- ==== Sys2Proof/Safety.lean ====
section
/-! DEFINITION. The words the statements use: what a legal state is, what an instruction leaves alone, what input is still to come,
what a string service reads, and the opcode table. -/

namespace Sys2Proof.Machine

open Sys2Proof

/-! ### Legal states -/

/-- An address that is not one of the two mapped keyboard registers (`20_memory.md` rule R42). -/
abbrev Ordinary (a : Word) : Prop := a ≠ Config.kbsrAddr ∧ a ≠ Config.kbdrAddr

/-- Exactly one of N, Z, P is set (`10_state.md` rule R22). -/
abbrev State.CondOneHot (s : State) : Prop := s.cond = 0b100#3 ∨ s.cond = 0b010#3 ∨ s.cond = 0b001#3

/-- COND is one-hot, or all zero as after reset (`10_state.md` rule R22). -/
abbrev State.CondLegal (s : State) : Prop := s.cond = 0b000#3 ∨ s.CondOneHot

/-- A held data access waits at the keyboard-data register, the only address whose read can wait (`40_cycle.md` rule R104). -/
abbrev Held.Legal : Held → Prop
  | .load _ ea => ea = Config.kbdrAddr
  | .loadIndirect _ pa => pa = Config.kbdrAddr
  | .storeIndirect _ pa => pa = Config.kbdrAddr
  | .getc => True
  | .inEcho => True
  | .puts _ => True
  | .putsp _ => True

/-- The instruction in progress, if there is one, is legal. -/
abbrev State.HeldLegal (s : State) : Prop :=
  match s.held with
  | none => True
  | some h => h.Legal

/-- The invariant of the machine: memory in canonical form, COND legal, the instruction in progress legal. -/
structure State.Inv (s : State) : Prop where
  memory : s.mem.wf
  cond : s.CondLegal
  held : s.HeldLegal

/-! ### What stays the same -/

/-- The general registers, all the same. -/
def State.SameRegs (s t : State) : Prop := ∀ q : RegId, t.reg q = s.reg q

/-- The general registers, all the same but `r`. -/
def State.SameRegsBut (r : RegId) (s t : State) : Prop := ∀ q : RegId, q ≠ r → t.reg q = s.reg q

/-- Every memory cell the same. -/
def State.SameMem (s t : State) : Prop := ∀ a : Word, t.cell a = s.cell a

/-- Every memory cell the same but the one at `a`. -/
def State.SameMemBut (a : Word) (s t : State) : Prop := ∀ b : Word, b ≠ a → t.cell b = s.cell b

/-- All that is neither a general register, PC, COND nor memory. -/
def State.SameRest (s t : State) : Prop :=
  t.run = s.run ∧ t.kbd = s.kbd ∧ t.out = s.out ∧ t.held = s.held ∧ t.arrivals = s.arrivals

/-- The same but for the stored cells behind the two keyboard registers (`10_state.md` rule R26). -/
def State.SameButHidden (s t : State) : Prop :=
  t.regs = s.regs ∧ t.pc = s.pc ∧ t.cond = s.cond ∧ (∀ a : Word, Ordinary a → t.cell a = s.cell a) ∧ s.SameRest t

/-! ### Input and strings -/

/-- The characters still to be consumed, in input-stream order: the one in the slot, then those the environment has yet to
deliver (`10_state.md` rule R27). -/
def State.pendingInput (s : State) : List Byte := s.kbd.toList ++ s.arrivals.filterMap id

/-- `MemRead` of successive cells from `p` gives the non-zero words `ws` and ends in the state `s'` (the scan of
`45_trap.md` rule R153). -/
def State.ReadsCells : List Word → Word → State → State → Prop
  | [], _, s, s' => s' = s
  | w :: ws, p, s, s' =>
    w ≠ 0x0000#16 ∧ ∃ s₁, s.memRead p = some (w, s₁) ∧ State.ReadsCells ws (p + 1#16) s₁ s'

/-! ### What an instruction in progress writes, and the opcode table -/

/-- The general register an instruction in progress has yet to write. -/
def Held.destination : Held → Option RegId
  | .load dr _ | .loadIndirect dr _ => some dr
  | .getc | .inEcho => some 0#3
  | .storeIndirect _ _ | .puts _ | .putsp _ => none

/-- An instruction in progress that will call `setcc`: a load. -/
def Held.setsCond : Held → Bool
  | .load _ _ | .loadIndirect _ _ => true
  | .getc | .inEcho | .storeIndirect _ _ | .puts _ | .putsp _ => false

/-- The address and value of the write an instruction in progress makes when it goes on: STI's. -/
def Held.stored (h : Held) (s : State) : Option (Word × Word) :=
  match h with
  | .storeIndirect sr pa => (s.memRead pa).map fun r => (r.1, s.reg sr)
  | .load _ _ | .loadIndirect _ _ | .getc | .inEcho | .puts _ | .putsp _ => none

/-- `spec/opcode_table.json`: the mask and the match of each of its 25 rows, in its order. -/
def opcodeTable : List (Word × Word) :=
  [(0xF000#16, 0x0000#16), (0xF020#16, 0x1000#16), (0xF020#16, 0x1020#16), (0xF000#16, 0x2000#16), (0xF000#16, 0x3000#16)] ++
  [(0xF800#16, 0x4800#16), (0xF800#16, 0x4000#16), (0xF020#16, 0x5000#16), (0xF020#16, 0x5020#16), (0xF000#16, 0x6000#16)] ++
  [(0xF000#16, 0x7000#16), (0xF000#16, 0x8000#16), (0xF000#16, 0x9000#16), (0xF000#16, 0xA000#16), (0xF000#16, 0xB000#16)] ++
  [(0xF000#16, 0xC000#16), (0xF000#16, 0xD000#16), (0xF000#16, 0xE000#16), (0xF0FF#16, 0xF020#16), (0xF0FF#16, 0xF021#16)] ++
  [(0xF0FF#16, 0xF022#16), (0xF0FF#16, 0xF023#16), (0xF0FF#16, 0xF024#16), (0xF0FF#16, 0xF025#16), (0xF000#16, 0xF000#16)]

end Sys2Proof.Machine

namespace Sys2Proof

open Sys2Proof.Machine

/-! ### What an instruction writes, and its row of the table -/

/-- The general register an instruction writes (`10_state.md` rule R20). -/
def Instr.destination : Instr → Option RegId
  | .addReg dr _ _ | .addImm dr _ _ | .andReg dr _ _ | .andImm dr _ _ | .not dr _ => some dr
  | .ld dr _ | .ldi dr _ | .ldr dr _ _ | .lea dr _ => some dr
  | .jsr _ | .jsrr _ => some 7#3
  | .trapGetc | .trapIn => some 0#3
  | .br _ _ | .st _ _ | .str _ _ _ | .sti _ _ | .rti _ | .jmp _ | .reserved _ | .trapOut | .trapPuts | .trapPutsp
  | .trapHalt | .trapUndefined _ _ => none

/-- The instructions that call `setcc`: the closed list of `10_state.md` rule R23. -/
def Instr.setsCond : Instr → Bool
  | .addReg _ _ _ | .addImm _ _ _ | .andReg _ _ _ | .andImm _ _ _ | .not _ _ => true
  | .ld _ _ | .ldi _ _ | .ldr _ _ _ | .lea _ _ => true
  | .br _ _ | .st _ _ | .str _ _ _ | .sti _ _ | .rti _ | .jmp _ | .jsr _ | .jsrr _ | .reserved _ | .trapGetc | .trapOut
  | .trapPuts | .trapIn | .trapPutsp | .trapHalt | .trapUndefined _ _ => false

/-- The address a store writes to, in the state after fetch and increment, and the value it writes; for STI the pointer read
must not wait (`44_store.md` rules R140 to R142). -/
def Instr.stored (i : Instr) (s : State) : Option (Word × Word) :=
  match i with
  | .st sr off => some (s.pcRelative off, s.reg sr)
  | .str sr base off => some (s.baseOffset base off, s.reg sr)
  | .sti sr off => (s.memRead (s.pcRelative off)).map fun r => (r.1, s.reg sr)
  | .br _ _ | .addReg _ _ _ | .addImm _ _ _ | .ld _ _ | .jsr _ | .jsrr _ | .andReg _ _ _ | .andImm _ _ _ | .ldr _ _ _
  | .rti _ | .not _ _ | .ldi _ _ | .jmp _ | .reserved _ | .lea _ _ | .trapGetc | .trapOut | .trapPuts | .trapIn
  | .trapPutsp | .trapHalt | .trapUndefined _ _ => none

/-- The table's row of an instruction. -/
def Instr.row : Instr → Nat
  | .br _ _ => 0 | .addReg _ _ _ => 1 | .addImm _ _ _ => 2 | .ld _ _ => 3 | .st _ _ => 4
  | .jsr _ => 5 | .jsrr _ => 6 | .andReg _ _ _ => 7 | .andImm _ _ _ => 8 | .ldr _ _ _ => 9
  | .str _ _ _ => 10 | .rti _ => 11 | .not _ _ => 12 | .ldi _ _ => 13 | .sti _ _ => 14
  | .jmp _ => 15 | .reserved _ => 16 | .lea _ _ => 17 | .trapGetc => 18 | .trapOut => 19
  | .trapPuts => 20 | .trapIn => 21 | .trapPutsp => 22 | .trapHalt => 23 | .trapUndefined _ _ => 24

/-- The bits of an instruction's word that the core examines or records: all but the ignored ones of `30_encoding.md`
rule R77. -/
def Instr.examined : Instr → Word
  | .addReg _ _ _ | .andReg _ _ _ => 0xFFE7#16
  | .not _ _ => 0xFFC0#16
  | .jmp _ => 0xF1C0#16
  | .jsrr _ => 0xF9C0#16
  | .trapGetc | .trapOut | .trapPuts | .trapIn | .trapPutsp | .trapHalt => 0xF0FF#16
  | .br _ _ | .addImm _ _ _ | .ld _ _ | .st _ _ | .jsr _ | .andImm _ _ _ | .ldr _ _ _ | .str _ _ _ | .rti _ | .ldi _ _
  | .sti _ _ | .reserved _ | .lea _ _ | .trapUndefined _ _ => 0xFFFF#16

end Sys2Proof
end

