-- ==== Sys2Proof/Certificates/Slice0/Obligations.lean ====
section
/-! DEFINITION. The statements for the provers. Each docstring names the rules of spec/ it formalises; where a clause rests on a
decision of `92_eei_decisions.md` or on a choice of the model, the docstring says so and names the log entry. -/

open Sys2Proof Sys2Proof.Machine

/-! ### Values, flags, memory -/

/-- `00_scope.md` rule R7: `sext_N` copies bit N-1 upwards, in bits and as a number; `zext_N` has zeros above the field. -/
def Obligations.SignExtensionCopiesTheTopBit : Prop :=
  ∀ (n : Nat) (f : BitVec n), 1 ≤ n → n ≤ 16 →
    (∀ i, i < 16 → (sext f).getLsbD i = if i < n then f.getLsbD i else f.getLsbD (n - 1)) ∧
    (sext f).toNat = (if f.toNat < 2 ^ (n - 1) then f.toNat else f.toNat + 65536 - 2 ^ n) ∧
    (∀ i, (zext f).getLsbD i = if i < n then f.getLsbD i else false)

/-- `10_state.md` rule R23, first part: COND is set from the value read as a signed number, and nothing else changes. The bit
assignment N, Z, P is decision D4 (log 13). -/
def Obligations.SetccFollowsTheSignOfTheValue : Prop :=
  ∀ (s : State) (v : Word),
    (v.toInt < 0 → (s.setcc v).cond = 0b100#3) ∧
    (v.toInt = 0 → (s.setcc v).cond = 0b010#3) ∧
    (0 < v.toInt → (s.setcc v).cond = 0b001#3) ∧
    s.SameRegs (s.setcc v) ∧ (s.setcc v).pc = s.pc ∧ s.SameMem (s.setcc v) ∧ s.SameRest (s.setcc v)

/-- `20_memory.md` rule R42: a read of an ordinary address returns the stored cell and has no side effect. -/
def Obligations.OrdinaryReadReturnsTheCell : Prop :=
  ∀ (s : State) (a : Word), a ≠ 0xFE00#16 → a ≠ 0xFE02#16 → s.memRead a = some (s.cell a, s)

/-- `20_memory.md` rules R43, R44: KBSR says in bit 15 whether a character waits; KBDR takes the character, zero-extended, after
which KBSR reads 0; with an empty slot its read waits. Bits 14 to 0 of KBSR are decision D8, the wait decision D10 (log 14). -/
def Obligations.KeyboardRegistersReadTheSlot : Prop :=
  ∀ (s : State) (c : Byte),
    (s.kbd = none → s.memRead 0xFE00#16 = some (0x0000#16, s) ∧ s.memRead 0xFE02#16 = none) ∧
    (s.kbd = some c → s.memRead 0xFE00#16 = some (0x8000#16, s) ∧
      ∃ t v, s.memRead 0xFE02#16 = some (v, t) ∧ v.toNat = c.toNat ∧ t.kbd = none ∧
        t.memRead 0xFE00#16 = some (0x0000#16, t) ∧
        t.regs = s.regs ∧ t.pc = s.pc ∧ t.cond = s.cond ∧ t.run = s.run ∧ t.mem = s.mem ∧ t.out = s.out ∧
        t.held = s.held ∧ t.arrivals = s.arrivals)

/-- `20_memory.md` rule R45: a write to an ordinary address stores all 16 bits, nothing else changes, and a later read of the
address returns them. -/
def Obligations.OrdinaryWriteThenReadGivesTheValue : Prop :=
  ∀ (s : State) (a v : Word), s.mem.wf → a ≠ 0xFE00#16 → a ≠ 0xFE02#16 →
    (s.memWrite a v).cell a = v ∧
    (s.memWrite a v).memRead a = some (v, s.memWrite a v) ∧
    s.SameMemBut a (s.memWrite a v) ∧
    s.SameRegs (s.memWrite a v) ∧ (s.memWrite a v).pc = s.pc ∧ (s.memWrite a v).cond = s.cond ∧
    s.SameRest (s.memWrite a v)

/-- `20_memory.md` rule R46: a write to a mapped address changes no state at all (decision D35; log 11). -/
def Obligations.WritesToKeyboardRegistersAreLost : Prop :=
  ∀ (s : State) (a v : Word), a = 0xFE00#16 ∨ a = 0xFE02#16 → s.memWrite a v = s

/-! ### Reset -/

/-- `10_state.md` rule R31: what reset leaves, for every `init_mem` and every plan of the environment. COND is decision D22, KBD
decision D9, `init_mem` as an argument decision D23 (logs 2, 3, 12); `held` is the model's field (log 4). -/
def Obligations.ResetLeavesTheStatedValues : Prop :=
  ∀ (m : Memory) (l : List (Option Byte)),
    (∀ r : RegId, (State.resetWith m l).reg r = 0x0000#16) ∧
    (State.resetWith m l).pc = 0x3000#16 ∧ (State.resetWith m l).cond = 0b000#3 ∧
    (State.resetWith m l).run = .running ∧ (∀ a : Word, (State.resetWith m l).cell a = m.read a.toNat) ∧
    (State.resetWith m l).kbd = none ∧ (State.resetWith m l).out = [] ∧ (State.resetWith m l).held = none

/-- The invariant of the machine holds after reset, for every `init_mem` in canonical form. -/
def Obligations.ResetMeetsTheInvariant : Prop :=
  ∀ (m : Memory) (l : List (Option Byte)), m.wf → (State.resetWith m l).Inv

/-! ### The cycle -/

/-- `40_cycle.md` rules R101, R102: a running machine with no instruction in progress reads the word at PC with `MemRead`,
increments PC modulo 65,536 and executes the decoded word in that state; before it, the environment has had its move (log 2).
At an ordinary PC the word is the stored cell. -/
def Obligations.StepRunsTheDecodedInstruction : Prop :=
  (∀ (s s₁ : State) (ir : Word), s.run = .running → s.held = none → s.environment.memRead s.pc = some (ir, s₁) →
    step s = exec (decode ir) (s₁.setPc (s.pc + 1#16))) ∧
  (∀ s : State, s.run = .running → s.held = none → s.pc ≠ 0xFE00#16 → s.pc ≠ 0xFE02#16 →
    step s = exec (decode (s.cell s.pc)) (s.environment.setPc (s.pc + 1#16)))

/-- `40_cycle.md` rule R104: a fetch from KBDR waits while the slot is empty; the step then changes nothing but what the
environment does. Fetching through the mapped read is decision D11 (log 15). -/
def Obligations.FetchFromKeyboardDataWaits : Prop :=
  ∀ s : State, s.run = .running → s.held = none → s.pc = 0xFE02#16 → s.environment.kbd = none →
    step s = .next s.environment

/-- `40_cycle.md` rule R100, `10_state.md` rule R25: once RUN is Halted or Faulted no number of steps changes the state, ever. R100
speaks of the core's cycle; that the environment's move stops too, so that KBD and the plan stay as they are, is the
model's reading (log 7). -/
def Obligations.StoppedMachineTakesNoCycle : Prop :=
  ∀ (s : State) (n : Nat), s.run ≠ .running → core.run n s = .next s

/-- `60_exceptions.md` rule R180, `20_memory.md` rule R41: no step of any state ends in a fault or a refusal. That IllegalOpcode
is a next state is the model's reading (log 6). -/
def Obligations.EveryStepAnswersANextState : Prop :=
  ∀ s : State, ∃ t : State, step s = .next t

/-- `20_memory.md` rule R56: a store to the very next address changes the instruction executed next. From a running state, if ST
with offset 0 is executed, the step after it executes the stored word. -/
def Obligations.StoreIsSeenByTheVeryNextFetch : Prop :=
  ∀ (s t : State) (sr : RegId), s.mem.wf → s.run = .running → s.held = none → Ordinary s.pc →
    exec (.st sr 0#9) s = .next t →
    step t = exec (decode (s.reg sr)) (t.environment.setPc (t.pc + 1#16))

/-- `10_state.md` rule R27 (c): `Deliver(c)` on an empty slot sets KBD to full(c), and nothing else; on a full slot it is not
enabled. The environment's move is the next entry of its plan: a character goes into an empty slot and leaves the plan, and
stays in the plan while the slot is full; an entry without one only leaves the plan; an empty plan does nothing. It never
overwrites or withdraws a pending character, loses and reorders none, and changes nothing but the slot and its plan
(decision D9). That the moves are a plan, one move a step, is the model's choice (log 2). -/
def Obligations.EnvironmentFillsOnlyAnEmptySlot : Prop :=
  ∀ s : State,
    (∀ c, s.kbd = none → s.deliver c = s.setKbd (some c) ∧ (s.deliver c).kbd = some c) ∧
    (∀ c d, s.kbd = some d → s.deliver c = s) ∧
    (∀ c rest, s.kbd = none → s.arrivals = some c :: rest →
      s.environment.kbd = some c ∧ s.environment.arrivals = rest) ∧
    (∀ c d rest, s.kbd = some d → s.arrivals = some c :: rest → s.environment = s) ∧
    (∀ rest, s.arrivals = none :: rest → s.environment.kbd = s.kbd ∧ s.environment.arrivals = rest) ∧
    (s.arrivals = [] → s.environment = s) ∧
    (∀ c, s.kbd = some c → s.environment.kbd = some c) ∧
    s.environment.pendingInput = s.pendingInput ∧
    s.environment.regs = s.regs ∧ s.environment.pc = s.pc ∧ s.environment.cond = s.cond ∧
    s.environment.run = s.run ∧ s.environment.mem = s.mem ∧ s.environment.out = s.out ∧ s.environment.held = s.held

/-! ### Rules of the whole machine -/

/-- Every step keeps the invariant: memory in canonical form, COND all zero or one-hot (`10_state.md` rule R22), and a held data
access waits at KBDR and nowhere else (`40_cycle.md` rule R104). -/
def Obligations.StepKeepsTheInvariant : Prop :=
  ∀ s t : State, s.Inv → step s = .next t → t.Inv

/-- `10_state.md` rule R22: once COND is one-hot it stays one-hot (the bit assignment is decision D4; log 13). -/
def Obligations.CondStaysOneHotOnceSet : Prop :=
  ∀ s t : State, s.CondOneHot → step s = .next t → t.CondOneHot

/-- `10_state.md` rules R28, R33: no step takes back or changes a character already written. -/
def Obligations.OutputIsOnlyAppendedTo : Prop :=
  ∀ s t : State, step s = .next t → s.out <+: t.out

/-- `10_state.md` rule R27, `40_cycle.md` rule R104: a step consumes the pending input in stream order, and at most one character
of it. (A string service that comes to KBDR twice does so in two steps of the model; log 5.) -/
def Obligations.InputIsConsumedInOrderOneCharacterAStep : Prop :=
  ∀ s t : State, step s = .next t → ∃ l : List Byte, l.length ≤ 1 ∧ s.pendingInput = l ++ t.pendingInput

/-- `10_state.md` rule R25, `70_reset_and_hazards.md` rule R205: RUN leaves Running only by a fetched HALT word, with the message
written, or by a fetched illegal word, with the record of its address and itself and nothing written; PC is the address
plus 1 (decisions D5, D19; logs 13, 17). -/
def Obligations.RunEndsOnlyByHaltOrIllegalOpcode : Prop :=
  ∀ s t : State, s.run = .running → step s = .next t → t.run ≠ .running →
    s.held = none ∧ t.pc = s.pc + 1#16 ∧ ∃ (ir : Word) (s₁ : State), s.environment.memRead s.pc = some (ir, s₁) ∧
      ((ir.extractLsb' 12 4 = 0xF#4 ∧ ir.extractLsb' 0 8 = 0x25#8 ∧ t.run = .halted ∧ t.out = s.out ++ haltMessage) ∨
       (t.out = s.out ∧ ∃ cause : Cause, t.run = .faulted cause s.pc ir ∧
         ((cause = .rti ∧ ir.extractLsb' 12 4 = 0x8#4) ∨
          (cause = .reserved ∧ ir.extractLsb' 12 4 = 0xD#4) ∨
          (cause = .badTrapVector ∧ ir.extractLsb' 12 4 = 0xF#4 ∧
            ¬ (0x20 ≤ (ir.extractLsb' 0 8).toNat ∧ (ir.extractLsb' 0 8).toNat ≤ 0x25)))))

/-- `10_state.md` rules R22, R23: if a step changes COND, the instruction it fetched, or the one it went on with, is one of ADD,
AND, NOT, LD, LDI, LDR, LEA (that TRAP is not among them is decision D16; log 16). -/
def Obligations.OnlyTheSevenInstructionsChangeCond : Prop :=
  ∀ s t : State, step s = .next t → t.cond ≠ s.cond →
    (∃ h, s.held = some h ∧ h.setsCond = true) ∨
    (s.held = none ∧ ∃ (ir : Word) (s₁ : State), s.environment.memRead s.pc = some (ir, s₁) ∧ (decode ir).setsCond = true)

/-- `10_state.md` rule R20: if a step changes a general register, it is the destination of the instruction it fetched, or of the
one it went on with (that TRAP does not write R7 is decision D15; log 9). -/
def Obligations.RegistersChangeOnlyAsDestinations : Prop :=
  ∀ (s t : State) (r : RegId), step s = .next t → t.reg r ≠ s.reg r →
    (∃ h, s.held = some h ∧ h.destination = some r) ∨
    (s.held = none ∧ ∃ (ir : Word) (s₁ : State),
      s.environment.memRead s.pc = some (ir, s₁) ∧ (decode ir).destination = some r)

/-- `10_state.md` rule R33, `44_store.md` rule R143: if a step changes a memory cell, the cell is an ordinary one, and it is the cell
that the fetched ST, STI or STR, or the STI the step went on with, stores to, holding the value stored. -/
def Obligations.MemoryChangesOnlyByStores : Prop :=
  ∀ (s t : State) (a : Word), s.mem.wf → step s = .next t → t.cell a ≠ s.cell a →
    Ordinary a ∧
    ((∃ h, s.held = some h ∧ h.stored s.environment = some (a, t.cell a)) ∨
     (s.held = none ∧ ∃ (ir : Word) (s₁ : State), s.environment.memRead s.pc = some (ir, s₁) ∧
       (decode ir).stored (s₁.setPc (s.pc + 1#16)) = some (a, t.cell a)))

/-- `10_state.md` rule R26 (decision D36; log 11): the stored cells behind the two keyboard registers are never observed: two
states that differ only in them step to states that differ only in them. -/
def Obligations.HiddenCellsAreNeverObserved : Prop :=
  ∀ s t s' : State, s.mem.wf → t.mem.wf → s.SameButHidden t → step s = .next s' →
    ∃ t', step t = .next t' ∧ s'.SameButHidden t'

/-! ### Encoding -/

/-- Decoding the encoding of a well-formed instruction gives the instruction back, with every field at every value
(`30_encoding.md` rules R72 to R76; the positions and numbers are decisions D1 to D5; log 13). -/
def Obligations.DecodeInvertsEncode : Prop :=
  ∀ i : Instr, i.wellFormed = true → decode (encode i) = i

/-- `30_encoding.md` rule R77: the decoded instruction is well-formed, its encoding has every examined bit of the word, and every
word with the same examined bits decodes to it (that ignored bits are ignored is decision D6; log 13). -/
def Obligations.DecodingIgnoresOnlyTheIgnoredBits : Prop :=
  ∀ w : Word, (decode w).wellFormed = true ∧
    encode (decode w) &&& (decode w).examined = w &&& (decode w).examined ∧
    ∀ w' : Word, w' &&& (decode w).examined = w &&& (decode w).examined → decode w' = decode w

/-- `30_encoding.md` rule R81: every word selects exactly one row of `opcode_table.json`, the row of its instruction, where the
catch-all TRAP row counts only when no service row matches. -/
def Obligations.EveryWordSelectsItsTableRow : Prop :=
  ∀ w : Word,
    (∃ r, opcodeTable[(decode w).row]? = some r ∧ w &&& r.1 = r.2) ∧
    ∀ (k : Nat) (r : Word × Word), opcodeTable[k]? = some r → w &&& r.1 = r.2 →
      k = (decode w).row ∨ (k = 24 ∧ 18 ≤ (decode w).row ∧ (decode w).row ≤ 23)

/-- Words of `30_encoding.md` rule R84 and `95_test_vectors.md`, written out bit by bit, decode to the instruction they stand
for, one or more of each family (the numbers and positions are decisions D1, D2, D5; log 13). -/
def Obligations.WrittenOutWordsDecode : Prop :=
  decode 0b0001000001100011#16 = .addImm 0 1 3 ∧
  decode 0b0001000001000010#16 = .addReg 0 1 2 ∧
  decode 0b1001011100111111#16 = .not 3 4 ∧
  decode 0b0000111111111111#16 = .br 7 (-1) ∧
  decode 0b0100100000000010#16 = .jsr 2 ∧
  decode 0b0100000011000000#16 = .jsrr 3 ∧
  decode 0b1010000000000011#16 = .ldi 0 3 ∧
  decode 0b0110010110111111#16 = .ldr 2 6 (-1) ∧
  decode 0b1110000111111110#16 = .lea 0 (-2) ∧
  decode 0b0111001010000101#16 = .str 1 2 5 ∧
  decode 0b1111000000100101#16 = .trapHalt ∧
  decode 0b1000000000000000#16 = .rti 0

/-- `30_encoding.md` rule R78: executing a word raises IllegalOpcode exactly when its opcode is 1000 or 1101, or is 1111 with a
vector outside 0x20 to 0x25; every other word is a legal instruction (numbers by decisions D1, D5; log 13). -/
def Obligations.IllegalWordsAreTheThreeClasses : Prop :=
  ∀ (w : Word) (s t : State), s.run = .running → exec (decode w) s = .next t →
    ((∃ cause addr ir, t.run = .faulted cause addr ir) ↔
      (w.extractLsb' 12 4 = 0x8#4 ∨ w.extractLsb' 12 4 = 0xD#4 ∨
       (w.extractLsb' 12 4 = 0xF#4 ∧ ¬ (0x20 ≤ (w.extractLsb' 0 8).toNat ∧ (w.extractLsb' 0 8).toNat ≤ 0x25))))

/-! ### ALU instructions and LEA -/

/-- `41_alu.md` rule R110: ADD, register form. -/
def Obligations.AddRegisterFormAddsModulo : Prop :=
  (∀ w : Word, w.extractLsb' 12 4 = 0b0001#4 → w[5] = false →
    decode w = .addReg (w.extractLsb' 9 3) (w.extractLsb' 6 3) (w.extractLsb' 0 3)) ∧
  ∀ (dr sr1 sr2 : RegId) (s : State), ∃ t v, exec (.addReg dr sr1 sr2) s = .next t ∧
    v.toNat = ((s.reg sr1).toNat + (s.reg sr2).toNat) % 65536 ∧
    t.reg dr = v ∧ t.cond = condOf v ∧ s.SameRegsBut dr t ∧ t.pc = s.pc ∧ s.SameMem t ∧ s.SameRest t

/-- `41_alu.md` rule R111: ADD, immediate form. -/
def Obligations.AddImmediateFormAddsTheSignedImmediate : Prop :=
  (∀ w : Word, w.extractLsb' 12 4 = 0b0001#4 → w[5] = true →
    decode w = .addImm (w.extractLsb' 9 3) (w.extractLsb' 6 3) (w.extractLsb' 0 5)) ∧
  ∀ (dr sr1 : RegId) (imm : BitVec 5) (s : State), ∃ t v, exec (.addImm dr sr1 imm) s = .next t ∧
    (v.toNat : Int) = ((s.reg sr1).toNat + imm.toInt) % 65536 ∧
    t.reg dr = v ∧ t.cond = condOf v ∧ s.SameRegsBut dr t ∧ t.pc = s.pc ∧ s.SameMem t ∧ s.SameRest t

/-- `41_alu.md` rule R112: AND, register form. -/
def Obligations.AndRegisterFormAndsBitwise : Prop :=
  (∀ w : Word, w.extractLsb' 12 4 = 0b0101#4 → w[5] = false →
    decode w = .andReg (w.extractLsb' 9 3) (w.extractLsb' 6 3) (w.extractLsb' 0 3)) ∧
  ∀ (dr sr1 sr2 : RegId) (s : State), ∃ t v, exec (.andReg dr sr1 sr2) s = .next t ∧
    (∀ i : Nat, v.getLsbD i = ((s.reg sr1).getLsbD i && (s.reg sr2).getLsbD i)) ∧
    t.reg dr = v ∧ t.cond = condOf v ∧ s.SameRegsBut dr t ∧ t.pc = s.pc ∧ s.SameMem t ∧ s.SameRest t

/-- `41_alu.md` rule R113: AND, immediate form; bits 15 to 5 of the mask are the immediate's sign. -/
def Obligations.AndImmediateFormAndsTheSignedImmediate : Prop :=
  (∀ w : Word, w.extractLsb' 12 4 = 0b0101#4 → w[5] = true →
    decode w = .andImm (w.extractLsb' 9 3) (w.extractLsb' 6 3) (w.extractLsb' 0 5)) ∧
  ∀ (dr sr1 : RegId) (imm : BitVec 5) (s : State), ∃ t v, exec (.andImm dr sr1 imm) s = .next t ∧
    (∀ i : Nat, v.getLsbD i = ((s.reg sr1).getLsbD i && if i < 5 then imm.getLsbD i else imm.getLsbD 4)) ∧
    t.reg dr = v ∧ t.cond = condOf v ∧ s.SameRegsBut dr t ∧ t.pc = s.pc ∧ s.SameMem t ∧ s.SameRest t

/-- `41_alu.md` rule R114: NOT. -/
def Obligations.NotComplementsAllBits : Prop :=
  (∀ w : Word, w.extractLsb' 12 4 = 0b1001#4 → decode w = .not (w.extractLsb' 9 3) (w.extractLsb' 6 3)) ∧
  ∀ (dr sr : RegId) (s : State), ∃ t v, exec (.not dr sr) s = .next t ∧
    v.toNat = 0xFFFF - (s.reg sr).toNat ∧
    t.reg dr = v ∧ t.cond = condOf v ∧ s.SameRegsBut dr t ∧ t.pc = s.pc ∧ s.SameMem t ∧ s.SameRest t

/-- `43_load.md` rule R133: LEA writes the address, reads no memory (the slot stays as it is) and sets COND. -/
def Obligations.LeaWritesTheAddressAndTheFlags : Prop :=
  (∀ w : Word, w.extractLsb' 12 4 = 0b1110#4 → decode w = .lea (w.extractLsb' 9 3) (w.extractLsb' 0 9)) ∧
  ∀ (dr : RegId) (off : BitVec 9) (s : State), ∃ t v, exec (.lea dr off) s = .next t ∧
    (v.toNat : Int) = (s.pc.toNat + off.toInt) % 65536 ∧
    t.reg dr = v ∧ t.cond = condOf v ∧ s.SameRegsBut dr t ∧ t.pc = s.pc ∧ s.SameMem t ∧ s.SameRest t

/-! ### Control transfer -/

/-- `42_control.md` rule R120: BR is taken iff its mask and COND share a set bit; not taken, PC stays at the incremented value
(decision D29; log 13). Nothing but PC changes. -/
def Obligations.BranchTakenIffMaskMeetsCond : Prop :=
  (∀ w : Word, w.extractLsb' 12 4 = 0b0000#4 → decode w = .br (w.extractLsb' 9 3) (w.extractLsb' 0 9)) ∧
  ∀ (nzp : BitVec 3) (off : BitVec 9) (s : State), ∃ t, exec (.br nzp off) s = .next t ∧
    ((∃ i : Nat, nzp.getLsbD i = true ∧ s.cond.getLsbD i = true) →
      (t.pc.toNat : Int) = (s.pc.toNat + off.toInt) % 65536) ∧
    ((∀ i : Nat, nzp.getLsbD i = true → s.cond.getLsbD i = false) → t.pc = s.pc) ∧
    s.SameRegs t ∧ t.cond = s.cond ∧ s.SameMem t ∧ s.SameRest t

/-- `42_control.md` rule R121: JMP, and RET with base register R7. -/
def Obligations.JumpGoesToTheBaseRegister : Prop :=
  (∀ w : Word, w.extractLsb' 12 4 = 0b1100#4 → decode w = .jmp (w.extractLsb' 6 3)) ∧ decode 0xC1C0#16 = .jmp 7#3 ∧
  ∀ (base : RegId) (s : State), ∃ t, exec (.jmp base) s = .next t ∧
    t.pc = s.reg base ∧ s.SameRegs t ∧ t.cond = s.cond ∧ s.SameMem t ∧ s.SameRest t

/-- `42_control.md` rule R122: JSR. -/
def Obligations.JsrLinksAndGoesToTheTarget : Prop :=
  (∀ w : Word, w.extractLsb' 12 4 = 0b0100#4 → w[11] = true → decode w = .jsr (w.extractLsb' 0 11)) ∧
  ∀ (off : BitVec 11) (s : State), ∃ t, exec (.jsr off) s = .next t ∧
    t.reg 7#3 = s.pc ∧ (t.pc.toNat : Int) = (s.pc.toNat + off.toInt) % 65536 ∧
    s.SameRegsBut 7#3 t ∧ t.cond = s.cond ∧ s.SameMem t ∧ s.SameRest t

/-- `42_control.md` rule R123: JSRR. For base register R7 the new R7 is read, so control goes to the next instruction (conflict
C11, decision D21; log 10). -/
def Obligations.JsrrLinksThenReadsTheBase : Prop :=
  (∀ w : Word, w.extractLsb' 12 4 = 0b0100#4 → w[11] = false → decode w = .jsrr (w.extractLsb' 6 3)) ∧
  ∀ (base : RegId) (s : State), ∃ t, exec (.jsrr base) s = .next t ∧
    t.reg 7#3 = s.pc ∧ t.pc = (if base = 7#3 then s.pc else s.reg base) ∧
    s.SameRegsBut 7#3 t ∧ t.cond = s.cond ∧ s.SameMem t ∧ s.SameRest t

/-! ### Loads and stores -/

/-- `43_load.md` rule R130: LD. The read has the mapped behaviour; it may take the slot's character, and nothing else changes but
DR and COND. -/
def Obligations.LdLoadsTheCellAtPcPlusOffset : Prop :=
  (∀ w : Word, w.extractLsb' 12 4 = 0b0010#4 → decode w = .ld (w.extractLsb' 9 3) (w.extractLsb' 0 9)) ∧
  ∀ (dr : RegId) (off : BitVec 9) (s s₁ : State) (v : Word), s.memRead (s.pc + sext off) = some (v, s₁) →
    ∃ t, exec (.ld dr off) s = .next t ∧ t.reg dr = v ∧ t.cond = condOf v ∧
      s.SameRegsBut dr t ∧ t.pc = s.pc ∧ s.SameMem t ∧ s₁.SameRest t ∧
      (s.pc + sext off ≠ 0xFE02#16 → s.SameRest t)

/-- `43_load.md` rule R132: LDR. -/
def Obligations.LdrLoadsTheCellAtBasePlusOffset : Prop :=
  (∀ w : Word, w.extractLsb' 12 4 = 0b0110#4 →
    decode w = .ldr (w.extractLsb' 9 3) (w.extractLsb' 6 3) (w.extractLsb' 0 6)) ∧
  ∀ (dr base : RegId) (off : BitVec 6) (s s₁ : State) (v : Word), s.memRead (s.reg base + sext off) = some (v, s₁) →
    ∃ t, exec (.ldr dr base off) s = .next t ∧ t.reg dr = v ∧ t.cond = condOf v ∧
      s.SameRegsBut dr t ∧ t.pc = s.pc ∧ s.SameMem t ∧ s₁.SameRest t ∧
      (s.reg base + sext off ≠ 0xFE02#16 → s.SameRest t)

/-- `43_load.md` rule R131: LDI makes two reads, the pointer first, each with the mapped behaviour. -/
def Obligations.LdiLoadsThroughThePointer : Prop :=
  (∀ w : Word, w.extractLsb' 12 4 = 0b1010#4 → decode w = .ldi (w.extractLsb' 9 3) (w.extractLsb' 0 9)) ∧
  ∀ (dr : RegId) (off : BitVec 9) (s s₁ s₂ : State) (p v : Word),
    s.memRead (s.pc + sext off) = some (p, s₁) → s₁.memRead p = some (v, s₂) →
    ∃ t, exec (.ldi dr off) s = .next t ∧ t.reg dr = v ∧ t.cond = condOf v ∧
      s.SameRegsBut dr t ∧ t.pc = s.pc ∧ s.SameMem t ∧ s₂.SameRest t ∧
      (s.pc + sext off ≠ 0xFE02#16 → p ≠ 0xFE02#16 → s.SameRest t)

/-- `44_store.md` rule R140: ST. All 16 bits are stored at PC + offset and no other cell changes; a store that lands on 0xFE00 or
0xFE02 does nothing. -/
def Obligations.StStoresTheRegisterAtPcPlusOffset : Prop :=
  (∀ w : Word, w.extractLsb' 12 4 = 0b0011#4 → decode w = .st (w.extractLsb' 9 3) (w.extractLsb' 0 9)) ∧
  ∀ (sr : RegId) (off : BitVec 9) (s : State), s.mem.wf → ∃ t, exec (.st sr off) s = .next t ∧
    (if s.pc + sext off = 0xFE00#16 ∨ s.pc + sext off = 0xFE02#16 then s.SameMem t
     else t.cell (s.pc + sext off) = s.reg sr ∧ s.SameMemBut (s.pc + sext off) t) ∧
    s.SameRegs t ∧ t.pc = s.pc ∧ t.cond = s.cond ∧ s.SameRest t

/-- `44_store.md` rule R142: STR. All 16 bits are stored at BaseR + offset and no other cell changes; a store that lands on 0xFE00
or 0xFE02 does nothing (`20_memory.md` rule R46, `44_store.md` rule R143 (e), decision D35; log 11). -/
def Obligations.StrStoresTheRegisterAtBasePlusOffset : Prop :=
  (∀ w : Word, w.extractLsb' 12 4 = 0b0111#4 →
    decode w = .str (w.extractLsb' 9 3) (w.extractLsb' 6 3) (w.extractLsb' 0 6)) ∧
  ∀ (sr base : RegId) (off : BitVec 6) (s : State), s.mem.wf → ∃ t, exec (.str sr base off) s = .next t ∧
    (if s.reg base + sext off = 0xFE00#16 ∨ s.reg base + sext off = 0xFE02#16 then s.SameMem t
     else t.cell (s.reg base + sext off) = s.reg sr ∧ s.SameMemBut (s.reg base + sext off) t) ∧
    s.SameRegs t ∧ t.pc = s.pc ∧ t.cond = s.cond ∧ s.SameRest t

/-- `44_store.md` rule R141: STI. One read, the pointer, with the mapped behaviour, then one write to where it points; a write to
0xFE00 or 0xFE02 is discarded. -/
def Obligations.StiStoresTheRegisterThroughThePointer : Prop :=
  (∀ w : Word, w.extractLsb' 12 4 = 0b1011#4 → decode w = .sti (w.extractLsb' 9 3) (w.extractLsb' 0 9)) ∧
  ∀ (sr : RegId) (off : BitVec 9) (s s₁ : State) (p : Word), s.mem.wf → s.memRead (s.pc + sext off) = some (p, s₁) →
    ∃ t, exec (.sti sr off) s = .next t ∧
      (if p = 0xFE00#16 ∨ p = 0xFE02#16 then s.SameMem t else t.cell p = s.reg sr ∧ s.SameMemBut p t) ∧
      s.SameRegs t ∧ t.pc = s.pc ∧ t.cond = s.cond ∧ s₁.SameRest t ∧
      (s.pc + sext off ≠ 0xFE02#16 → s.SameRest t)

/-! ### TRAP services -/

/-- `45_trap.md` rules R151, R158: GETC takes the character of the slot into R0, zero-extended, echoes nothing and changes nothing
else (decisions D14, D15, D16; logs 9, 16). -/
def Obligations.GetcPutsTheCharacterInR0 : Prop :=
  ∀ (s : State) (c : Byte), s.kbd = some c → ∃ t, exec .trapGetc s = .next t ∧
    (t.reg 0#3).toNat = c.toNat ∧ s.SameRegsBut 0#3 t ∧ t.pc = s.pc ∧ t.cond = s.cond ∧ s.SameMem t ∧
    t.kbd = none ∧ t.run = s.run ∧ t.out = s.out ∧ t.held = s.held ∧ t.arrivals = s.arrivals

/-- `45_trap.md` rules R152, R158: OUT appends the low byte of R0, whatever the high byte, and changes nothing else (decision D15;
log 9). -/
def Obligations.OutAppendsTheLowByteOfR0 : Prop :=
  ∀ s : State, ∃ (t : State) (b : Byte), exec .trapOut s = .next t ∧ b.toNat = (s.reg 0#3).toNat % 256 ∧
    t.out = s.out ++ [b] ∧ s.SameRegs t ∧ t.pc = s.pc ∧ t.cond = s.cond ∧ s.SameMem t ∧
    t.run = s.run ∧ t.kbd = s.kbd ∧ t.held = s.held ∧ t.arrivals = s.arrivals

/-- `45_trap.md` rules R153, R158: PUTS reads the cells from R0 on, with the mapped behaviour, until a zero cell, and appends the
low byte of each; where a read waits it is held there with the characters so far written (decision D12; log 16). -/
def Obligations.PutsWritesLowBytesUntilAZeroCell : Prop :=
  ∀ (s s₁ : State) (ws : List Word), State.ReadsCells ws (s.reg 0#3) s s₁ → ws.length < scanTrip (s.reg 0#3) →
    (∀ s₂, s₁.memRead (s.reg 0#3 + BitVec.ofNat 16 ws.length) = some (0x0000#16, s₂) →
      ∃ t, exec .trapPuts s = .next t ∧ t.out = s.out ++ ws.map (fun w => w.extractLsb' 0 8) ∧
        s.SameRegs t ∧ t.pc = s.pc ∧ t.cond = s.cond ∧ s.SameMem t ∧
        t.run = s.run ∧ t.kbd = s₂.kbd ∧ t.held = s.held ∧ t.arrivals = s.arrivals) ∧
    (s₁.memRead (s.reg 0#3 + BitVec.ofNat 16 ws.length) = none →
      ∃ t, exec .trapPuts s = .next t ∧ t.out = s.out ++ ws.map (fun w => w.extractLsb' 0 8) ∧
        s.SameRegs t ∧ t.pc = s.pc ∧ t.cond = s.cond ∧ s.SameMem t ∧
        t.run = s.run ∧ t.kbd = none ∧ t.held = some (.puts 0xFE02#16) ∧ t.arrivals = s.arrivals)

/-- `45_trap.md` rules R155, R158: PUTSP, as PUTS, but two characters a cell, the low byte first, a zero high byte skipped (decision
D13; log 16). -/
def Obligations.PutspWritesBothBytesUntilAZeroCell : Prop :=
  ∀ (s s₁ : State) (ws : List Word), State.ReadsCells ws (s.reg 0#3) s s₁ → ws.length < scanTrip (s.reg 0#3) →
    (∀ s₂, s₁.memRead (s.reg 0#3 + BitVec.ofNat 16 ws.length) = some (0x0000#16, s₂) →
      ∃ t, exec .trapPutsp s = .next t ∧
        t.out = s.out ++ ws.flatMap (fun w => w.extractLsb' 0 8 :: [w.extractLsb' 8 8].filter (· ≠ 0x00#8)) ∧
        s.SameRegs t ∧ t.pc = s.pc ∧ t.cond = s.cond ∧ s.SameMem t ∧
        t.run = s.run ∧ t.kbd = s₂.kbd ∧ t.held = s.held ∧ t.arrivals = s.arrivals) ∧
    (s₁.memRead (s.reg 0#3 + BitVec.ofNat 16 ws.length) = none →
      ∃ t, exec .trapPutsp s = .next t ∧
        t.out = s.out ++ ws.flatMap (fun w => w.extractLsb' 0 8 :: [w.extractLsb' 8 8].filter (· ≠ 0x00#8)) ∧
        s.SameRegs t ∧ t.pc = s.pc ∧ t.cond = s.cond ∧ s.SameMem t ∧
        t.run = s.run ∧ t.kbd = none ∧ t.held = some (.putsp 0xFE02#16) ∧ t.arrivals = s.arrivals)

/-- `45_trap.md` rules R153, R155: a string with no zero cell does not end its service. After one trip round the memory (65,536
cells, or up to KBSR when it begins behind it), the characters of all its cells written, the service is in progress at the
next cell. That a step reads one trip is the model's choice (log 5); that the next step goes on from there is
`StringServiceInProgressGoesOn`. -/
def Obligations.StringWithoutZeroCellGoesOn : Prop :=
  ∀ (s s₁ : State) (ws : List Word), State.ReadsCells ws (s.reg 0#3) s s₁ → ws.length = scanTrip (s.reg 0#3) →
    (∃ t, exec .trapPuts s = .next t ∧ t.held = some (.puts (s.reg 0#3 + BitVec.ofNat 16 ws.length)) ∧
      t.out = s.out ++ ws.map (fun w => w.extractLsb' 0 8) ∧
      s.SameRegs t ∧ t.pc = s.pc ∧ t.cond = s.cond ∧ s.SameMem t ∧
      t.run = s.run ∧ t.kbd = s₁.kbd ∧ t.arrivals = s.arrivals) ∧
    (∃ t, exec .trapPutsp s = .next t ∧ t.held = some (.putsp (s.reg 0#3 + BitVec.ofNat 16 ws.length)) ∧
      t.out = s.out ++ ws.flatMap (fun w => w.extractLsb' 0 8 :: [w.extractLsb' 8 8].filter (· ≠ 0x00#8)) ∧
      s.SameRegs t ∧ t.pc = s.pc ∧ t.cond = s.cond ∧ s.SameMem t ∧
      t.run = s.run ∧ t.kbd = s₁.kbd ∧ t.arrivals = s.arrivals)

/-- `45_trap.md` rules R153, R155, R158, `40_cycle.md` rule R104: a step with PUTS or PUTSP in progress at any cell `p` goes on with
the scan from `p`, in the state the environment leaves. It ends at a zero cell; it is held at a cell whose read waits; after
one trip without a zero cell it is in progress at the next cell. In each case the characters of the cells read are
appended in order, and nothing else changes but the slot. The field in which the service is in progress and the length
of a trip are the model's choice (logs 4, 5). -/
def Obligations.StringServiceInProgressGoesOn : Prop :=
  ∀ (again : Word → Held) (chars : Word → List Byte),
    ((again = .puts ∧ chars = fun w => [w.extractLsb' 0 8]) ∨
     (again = .putsp ∧ chars = fun w => w.extractLsb' 0 8 :: [w.extractLsb' 8 8].filter (· ≠ 0x00#8))) →
    ∀ (s s₁ : State) (p : Word) (ws : List Word), s.run = .running → s.held = some (again p) →
      State.ReadsCells ws p s.environment s₁ →
      (∀ s₂, ws.length < scanTrip p → s₁.memRead (p + BitVec.ofNat 16 ws.length) = some (0x0000#16, s₂) →
        ∃ t, step s = .next t ∧ t.held = none ∧ t.kbd = s₂.kbd ∧ t.out = s.out ++ ws.flatMap chars ∧
          s.SameRegs t ∧ t.pc = s.pc ∧ t.cond = s.cond ∧ s.SameMem t ∧ t.run = .running ∧
          t.arrivals = s.environment.arrivals) ∧
      (ws.length < scanTrip p → s₁.memRead (p + BitVec.ofNat 16 ws.length) = none →
        ∃ t, step s = .next t ∧ t.held = some (again 0xFE02#16) ∧ t.kbd = none ∧ t.out = s.out ++ ws.flatMap chars ∧
          s.SameRegs t ∧ t.pc = s.pc ∧ t.cond = s.cond ∧ s.SameMem t ∧ t.run = .running ∧
          t.arrivals = s.environment.arrivals) ∧
      (ws.length = scanTrip p →
        ∃ t, step s = .next t ∧ t.held = some (again (p + BitVec.ofNat 16 ws.length)) ∧ t.kbd = s₁.kbd ∧
          t.out = s.out ++ ws.flatMap chars ∧
          s.SameRegs t ∧ t.pc = s.pc ∧ t.cond = s.cond ∧ s.SameMem t ∧ t.run = .running ∧
          t.arrivals = s.environment.arrivals)

/-- `45_trap.md` rules R154, R158: IN writes the prompt, takes the character, echoes it and puts it in R0, zero-extended, and
changes nothing else (decisions D14 to D17; logs 8, 9, 16). -/
def Obligations.InPromptsEchoesAndPutsTheCharacterInR0 : Prop :=
  ∀ (s : State) (c : Byte), s.kbd = some c → ∃ t, exec .trapIn s = .next t ∧
    t.out = s.out ++ inPrompt ++ [c] ∧
    (t.reg 0#3).toNat = c.toNat ∧ s.SameRegsBut 0#3 t ∧ t.pc = s.pc ∧ t.cond = s.cond ∧ s.SameMem t ∧
    t.kbd = none ∧ t.run = s.run ∧ t.held = s.held ∧ t.arrivals = s.arrivals

/-- `45_trap.md` rules R156, R158: HALT writes the message and sets RUN to Halted; PC, registers, COND and memory stay (decisions
D15 to D17, D25; logs 8, 9). -/
def Obligations.HaltWritesTheMessageAndHalts : Prop :=
  ∀ s : State, ∃ t, exec .trapHalt s = .next t ∧ t.run = .halted ∧ t.out = s.out ++ haltMessage ∧
    s.SameRegs t ∧ t.pc = s.pc ∧ t.cond = s.cond ∧ s.SameMem t ∧
    t.kbd = s.kbd ∧ t.held = s.held ∧ t.arrivals = s.arrivals

/-! ### The exception -/

/-- `46_illegal.md` rules R170, R171, `45_trap.md` rule R157, `60_exceptions.md` rules R181, R184: RTI, the reserved opcode and a
TRAP with an unrecognised vector set RUN to Faulted with the cause, the address of the instruction (PC - 1, as PC is the
incremented one) and the whole word, and nothing else changes (decisions D19, D20, D27; log 17). -/
def Obligations.IllegalOpcodeRecordsAndStops : Prop :=
  (∀ (ignored : BitVec 12) (s : State), ∃ t, exec (.rti ignored) s = .next t ∧
    t.run = .faulted .rti (s.pc - 1#16) (0x8#4 ++ ignored) ∧
    s.SameRegs t ∧ t.pc = s.pc ∧ t.cond = s.cond ∧ s.SameMem t ∧
    t.kbd = s.kbd ∧ t.out = s.out ∧ t.held = s.held ∧ t.arrivals = s.arrivals) ∧
  (∀ (ignored : BitVec 12) (s : State), ∃ t, exec (.reserved ignored) s = .next t ∧
    t.run = .faulted .reserved (s.pc - 1#16) (0xD#4 ++ ignored) ∧
    s.SameRegs t ∧ t.pc = s.pc ∧ t.cond = s.cond ∧ s.SameMem t ∧
    t.kbd = s.kbd ∧ t.out = s.out ∧ t.held = s.held ∧ t.arrivals = s.arrivals) ∧
  (∀ (ignored : BitVec 4) (vect : BitVec 8) (s : State), ∃ t, exec (.trapUndefined ignored vect) s = .next t ∧
    t.run = .faulted .badTrapVector (s.pc - 1#16) (0xF#4 ++ ignored ++ vect) ∧
    s.SameRegs t ∧ t.pc = s.pc ∧ t.cond = s.cond ∧ s.SameMem t ∧
    t.kbd = s.kbd ∧ t.out = s.out ∧ t.held = s.held ∧ t.arrivals = s.arrivals)

/-! ### Waiting for input -/

/-- `40_cycle.md` rule R104: with an empty slot, a load, the pointer read of LDI or STI, GETC and IN are held: nothing changes (for
IN, the prompt is written) but the record of what waits (decisions D10, D30; log 4). -/
def Obligations.InputWithoutACharacterIsHeld : Prop :=
  ∀ s : State, s.kbd = none →
    (∀ (dr : RegId) (off : BitVec 9), s.pc + sext off = 0xFE02#16 →
      exec (.ld dr off) s = .next (s.setHeld (some (.load dr 0xFE02#16))) ∧
      exec (.ldi dr off) s = .next (s.setHeld (some (.loadIndirect dr 0xFE02#16))) ∧
      exec (.sti dr off) s = .next (s.setHeld (some (.storeIndirect dr 0xFE02#16)))) ∧
    (∀ (dr : RegId) (off : BitVec 9) (s₁ : State), s.memRead (s.pc + sext off) = some (0xFE02#16, s₁) →
      exec (.ldi dr off) s = .next (s.setHeld (some (.load dr 0xFE02#16)))) ∧
    (∀ (dr base : RegId) (off : BitVec 6), s.reg base + sext off = 0xFE02#16 →
      exec (.ldr dr base off) s = .next (s.setHeld (some (.load dr 0xFE02#16)))) ∧
    exec .trapGetc s = .next (s.setHeld (some .getc)) ∧
    exec .trapIn s = .next ((s.emit inPrompt).setHeld (some .inEcho))

/-- `40_cycle.md` rule R104, `60_exceptions.md` rule R192: while the slot stays empty a legally held instruction that waits for a
character stays held, and a step changes nothing but what the environment does (log 4). A string service in progress waits
when it stands at KBDR. -/
def Obligations.HeldInstructionWaitsUntilDelivery : Prop :=
  ∀ (s : State) (h : Held), s.run = .running → s.held = some h → h.Legal →
    (∀ p, h = .puts p ∨ h = .putsp p → p = 0xFE02#16) → s.environment.kbd = none →
    step s = .next s.environment

/-- `40_cycle.md` rule R104 (decision D30; log 4): being held and going on when the character is delivered is the same as the single
transition that finds the slot full: for every instruction that an empty slot holds, delivering the character to the held
state and going on gives the state that executing the instruction with the character already there gives. -/
def Obligations.HoldThenDeliverIsTheSingleTransition : Prop :=
  ∀ (i : Instr) (s t : State) (h : Held) (c : Byte), s.kbd = none → s.held = none →
    exec i s = .next t → t.held = some h →
    exec i (s.deliver c) = .next ((t.deliver c).resume h)

/-- `40_cycle.md` rules R104, R192: a held instruction goes on when the slot is full: a running step with an instruction in progress
issues its waiting operation again in the state the environment leaves, and from a legal state it then holds no data access
and no GETC or IN any longer (log 4). -/
def Obligations.HeldInstructionCompletesOnDelivery : Prop :=
  ∀ (s : State) (h : Held) (c : Byte), s.run = .running → s.held = some h → h.Legal → s.environment.kbd = some c →
    ∃ t, step s = .next t ∧ t = s.environment.resume h ∧ t.pc = s.pc ∧ t.run = .running ∧
      ((∀ p, h ≠ .puts p ∧ h ≠ .putsp p) → t.held = none ∧ t.kbd = none)

/-! ### Frames that hold for every form, waiting included -/

/-- `43_load.md` rule R134, `40_cycle.md` rule R104: whatever LD, LDI, LDR do, a read or a wait, on an ordinary or a mapped
address, they change no register but DR, not PC, no memory cell, not RUN and not OUT; and LDI's second read needs no
character once the first has taken it. -/
def Obligations.LoadsKeepEverythingElse : Prop :=
  ∀ (i : Instr) (s t : State) (dr base : RegId) (off9 : BitVec 9) (off6 : BitVec 6),
    i = .ld dr off9 ∨ i = .ldi dr off9 ∨ i = .ldr dr base off6 → exec i s = .next t →
    s.SameRegsBut dr t ∧ t.pc = s.pc ∧ s.SameMem t ∧ t.run = s.run ∧ t.out = s.out ∧ t.arrivals = s.arrivals ∧
    (t.kbd = s.kbd ∨ t.kbd = none) ∧ (t.held = s.held ∨ t.kbd = s.kbd)

/-- `45_trap.md` rule R158: whatever a service does, completing or waiting, it does not change PC, COND, memory or any register but
R0, and R0 only for GETC and IN; it only appends to OUT; only HALT changes RUN (decisions D15, D16; logs 9, 16). -/
def Obligations.TrapServicesKeepEverythingElse : Prop :=
  ∀ (i : Instr) (s t : State),
    i = .trapGetc ∨ i = .trapOut ∨ i = .trapPuts ∨ i = .trapIn ∨ i = .trapPutsp ∨ i = .trapHalt → exec i s = .next t →
    s.SameRegsBut 0#3 t ∧ (i ≠ .trapGetc → i ≠ .trapIn → s.SameRegs t) ∧ t.pc = s.pc ∧ t.cond = s.cond ∧ s.SameMem t ∧
    s.out <+: t.out ∧ (i ≠ .trapHalt → t.run = s.run) ∧ (t.kbd = s.kbd ∨ t.kbd = none) ∧ t.arrivals = s.arrivals
end

