-- ==== Sys2Proof/Laws/Decode.lean ====
section
/-! SUPPORT. Reading the fields of an encoded instruction: the lemmas by which a field of `encode i` is computed. -/

namespace Sys2Proof

/-- A field of a word is the vector that has the same bits. -/
theorem extract_of_bits {n : Nat} (w : BitVec n) (lo k : Nat) (x : BitVec k)
    (h : ∀ i, i < k → w.getLsbD (lo + i) = x.getLsbD i) : w.extractLsb' lo k = x :=
  BitVec.eq_of_getLsbD_eq fun i hi => by rw [BitVec.getLsbD_extractLsb', h i hi]; simp [hi]

/-- A property of every bit of a 4-bit field, bit by bit. -/
theorem forall_lt_four {p : Nat → Prop} (h0 : p 0) (h1 : p 1) (h2 : p 2) (h3 : p 3) : ∀ i, i < 4 → p i := by
  intro i hi
  obtain rfl | rfl | rfl | rfl : i = 0 ∨ i = 1 ∨ i = 2 ∨ i = 3 := by omega
  exacts [h0, h1, h2, h3]

/-- The opcode field of a word, from its four bits. -/
theorem opcode_of_bits (w : Word) (o : BitVec 4) (h0 : w.getLsbD 12 = o.getLsbD 0) (h1 : w.getLsbD 13 = o.getLsbD 1)
    (h2 : w.getLsbD 14 = o.getLsbD 2) (h3 : w.getLsbD 15 = o.getLsbD 3) : w.extractLsb' 12 4 = o :=
  extract_of_bits w 12 4 o (forall_lt_four h0 h1 h2 h3)

end Sys2Proof
end

