-- ==== Sys2Proof/Laws/State.lean ====
section
/-! SUPPORT. One lemma for each field of State and each named update, true by unfolding, so that no later proof unfolds a record
update; then the updates made of these. -/

namespace Sys2Proof.Machine

open Sys2Proof

/-! ### The updates of one field -/

@[simp] theorem State.setPc_regs (s : State) (v : Word) : (s.setPc v).regs = s.regs := rfl
@[simp] theorem State.setPc_pc (s : State) (v : Word) : (s.setPc v).pc = v := rfl
@[simp] theorem State.setPc_cond (s : State) (v : Word) : (s.setPc v).cond = s.cond := rfl
@[simp] theorem State.setPc_run (s : State) (v : Word) : (s.setPc v).run = s.run := rfl
@[simp] theorem State.setPc_mem (s : State) (v : Word) : (s.setPc v).mem = s.mem := rfl
@[simp] theorem State.setPc_kbd (s : State) (v : Word) : (s.setPc v).kbd = s.kbd := rfl
@[simp] theorem State.setPc_out (s : State) (v : Word) : (s.setPc v).out = s.out := rfl
@[simp] theorem State.setPc_held (s : State) (v : Word) : (s.setPc v).held = s.held := rfl
@[simp] theorem State.setPc_arrivals (s : State) (v : Word) : (s.setPc v).arrivals = s.arrivals := rfl
@[simp] theorem State.setPc_reg (s : State) (v : Word) (q : RegId) : (s.setPc v).reg q = s.reg q := rfl
@[simp] theorem State.setPc_cell (s : State) (v : Word) (a : Word) : (s.setPc v).cell a = s.cell a := rfl

@[simp] theorem State.setCond_regs (s : State) (c : BitVec 3) : (s.setCond c).regs = s.regs := rfl
@[simp] theorem State.setCond_pc (s : State) (c : BitVec 3) : (s.setCond c).pc = s.pc := rfl
@[simp] theorem State.setCond_cond (s : State) (c : BitVec 3) : (s.setCond c).cond = c := rfl
@[simp] theorem State.setCond_run (s : State) (c : BitVec 3) : (s.setCond c).run = s.run := rfl
@[simp] theorem State.setCond_mem (s : State) (c : BitVec 3) : (s.setCond c).mem = s.mem := rfl
@[simp] theorem State.setCond_kbd (s : State) (c : BitVec 3) : (s.setCond c).kbd = s.kbd := rfl
@[simp] theorem State.setCond_out (s : State) (c : BitVec 3) : (s.setCond c).out = s.out := rfl
@[simp] theorem State.setCond_held (s : State) (c : BitVec 3) : (s.setCond c).held = s.held := rfl
@[simp] theorem State.setCond_arrivals (s : State) (c : BitVec 3) : (s.setCond c).arrivals = s.arrivals := rfl
@[simp] theorem State.setCond_reg (s : State) (c : BitVec 3) (q : RegId) : (s.setCond c).reg q = s.reg q := rfl
@[simp] theorem State.setCond_cell (s : State) (c : BitVec 3) (a : Word) : (s.setCond c).cell a = s.cell a := rfl

@[simp] theorem State.setRun_regs (s : State) (r : Run) : (s.setRun r).regs = s.regs := rfl
@[simp] theorem State.setRun_pc (s : State) (r : Run) : (s.setRun r).pc = s.pc := rfl
@[simp] theorem State.setRun_cond (s : State) (r : Run) : (s.setRun r).cond = s.cond := rfl
@[simp] theorem State.setRun_run (s : State) (r : Run) : (s.setRun r).run = r := rfl
@[simp] theorem State.setRun_mem (s : State) (r : Run) : (s.setRun r).mem = s.mem := rfl
@[simp] theorem State.setRun_kbd (s : State) (r : Run) : (s.setRun r).kbd = s.kbd := rfl
@[simp] theorem State.setRun_out (s : State) (r : Run) : (s.setRun r).out = s.out := rfl
@[simp] theorem State.setRun_held (s : State) (r : Run) : (s.setRun r).held = s.held := rfl
@[simp] theorem State.setRun_arrivals (s : State) (r : Run) : (s.setRun r).arrivals = s.arrivals := rfl
@[simp] theorem State.setRun_reg (s : State) (r : Run) (q : RegId) : (s.setRun r).reg q = s.reg q := rfl
@[simp] theorem State.setRun_cell (s : State) (r : Run) (a : Word) : (s.setRun r).cell a = s.cell a := rfl

@[simp] theorem State.setMem_regs (s : State) (m : Memory) : (s.setMem m).regs = s.regs := rfl
@[simp] theorem State.setMem_pc (s : State) (m : Memory) : (s.setMem m).pc = s.pc := rfl
@[simp] theorem State.setMem_cond (s : State) (m : Memory) : (s.setMem m).cond = s.cond := rfl
@[simp] theorem State.setMem_run (s : State) (m : Memory) : (s.setMem m).run = s.run := rfl
@[simp] theorem State.setMem_mem (s : State) (m : Memory) : (s.setMem m).mem = m := rfl
@[simp] theorem State.setMem_kbd (s : State) (m : Memory) : (s.setMem m).kbd = s.kbd := rfl
@[simp] theorem State.setMem_out (s : State) (m : Memory) : (s.setMem m).out = s.out := rfl
@[simp] theorem State.setMem_held (s : State) (m : Memory) : (s.setMem m).held = s.held := rfl
@[simp] theorem State.setMem_arrivals (s : State) (m : Memory) : (s.setMem m).arrivals = s.arrivals := rfl
@[simp] theorem State.setMem_reg (s : State) (m : Memory) (q : RegId) : (s.setMem m).reg q = s.reg q := rfl

@[simp] theorem State.setKbd_regs (s : State) (k : Option Byte) : (s.setKbd k).regs = s.regs := rfl
@[simp] theorem State.setKbd_pc (s : State) (k : Option Byte) : (s.setKbd k).pc = s.pc := rfl
@[simp] theorem State.setKbd_cond (s : State) (k : Option Byte) : (s.setKbd k).cond = s.cond := rfl
@[simp] theorem State.setKbd_run (s : State) (k : Option Byte) : (s.setKbd k).run = s.run := rfl
@[simp] theorem State.setKbd_mem (s : State) (k : Option Byte) : (s.setKbd k).mem = s.mem := rfl
@[simp] theorem State.setKbd_kbd (s : State) (k : Option Byte) : (s.setKbd k).kbd = k := rfl
@[simp] theorem State.setKbd_out (s : State) (k : Option Byte) : (s.setKbd k).out = s.out := rfl
@[simp] theorem State.setKbd_held (s : State) (k : Option Byte) : (s.setKbd k).held = s.held := rfl
@[simp] theorem State.setKbd_arrivals (s : State) (k : Option Byte) : (s.setKbd k).arrivals = s.arrivals := rfl
@[simp] theorem State.setKbd_reg (s : State) (k : Option Byte) (q : RegId) : (s.setKbd k).reg q = s.reg q := rfl
@[simp] theorem State.setKbd_cell (s : State) (k : Option Byte) (a : Word) : (s.setKbd k).cell a = s.cell a := rfl

@[simp] theorem State.emit_regs (s : State) (l : List Byte) : (s.emit l).regs = s.regs := rfl
@[simp] theorem State.emit_pc (s : State) (l : List Byte) : (s.emit l).pc = s.pc := rfl
@[simp] theorem State.emit_cond (s : State) (l : List Byte) : (s.emit l).cond = s.cond := rfl
@[simp] theorem State.emit_run (s : State) (l : List Byte) : (s.emit l).run = s.run := rfl
@[simp] theorem State.emit_mem (s : State) (l : List Byte) : (s.emit l).mem = s.mem := rfl
@[simp] theorem State.emit_kbd (s : State) (l : List Byte) : (s.emit l).kbd = s.kbd := rfl
@[simp] theorem State.emit_out (s : State) (l : List Byte) : (s.emit l).out = s.out ++ l := rfl
@[simp] theorem State.emit_held (s : State) (l : List Byte) : (s.emit l).held = s.held := rfl
@[simp] theorem State.emit_arrivals (s : State) (l : List Byte) : (s.emit l).arrivals = s.arrivals := rfl
@[simp] theorem State.emit_reg (s : State) (l : List Byte) (q : RegId) : (s.emit l).reg q = s.reg q := rfl
@[simp] theorem State.emit_cell (s : State) (l : List Byte) (a : Word) : (s.emit l).cell a = s.cell a := rfl

@[simp] theorem State.setHeld_regs (s : State) (h : Option Held) : (s.setHeld h).regs = s.regs := rfl
@[simp] theorem State.setHeld_pc (s : State) (h : Option Held) : (s.setHeld h).pc = s.pc := rfl
@[simp] theorem State.setHeld_cond (s : State) (h : Option Held) : (s.setHeld h).cond = s.cond := rfl
@[simp] theorem State.setHeld_run (s : State) (h : Option Held) : (s.setHeld h).run = s.run := rfl
@[simp] theorem State.setHeld_mem (s : State) (h : Option Held) : (s.setHeld h).mem = s.mem := rfl
@[simp] theorem State.setHeld_kbd (s : State) (h : Option Held) : (s.setHeld h).kbd = s.kbd := rfl
@[simp] theorem State.setHeld_out (s : State) (h : Option Held) : (s.setHeld h).out = s.out := rfl
@[simp] theorem State.setHeld_held (s : State) (h : Option Held) : (s.setHeld h).held = h := rfl
@[simp] theorem State.setHeld_arrivals (s : State) (h : Option Held) : (s.setHeld h).arrivals = s.arrivals := rfl
@[simp] theorem State.setHeld_reg (s : State) (h : Option Held) (q : RegId) : (s.setHeld h).reg q = s.reg q := rfl
@[simp] theorem State.setHeld_cell (s : State) (h : Option Held) (a : Word) : (s.setHeld h).cell a = s.cell a := rfl

@[simp] theorem State.setArrivals_regs (s : State) (l : List (Option Byte)) : (s.setArrivals l).regs = s.regs := rfl
@[simp] theorem State.setArrivals_pc (s : State) (l : List (Option Byte)) : (s.setArrivals l).pc = s.pc := rfl
@[simp] theorem State.setArrivals_cond (s : State) (l : List (Option Byte)) : (s.setArrivals l).cond = s.cond := rfl
@[simp] theorem State.setArrivals_run (s : State) (l : List (Option Byte)) : (s.setArrivals l).run = s.run := rfl
@[simp] theorem State.setArrivals_mem (s : State) (l : List (Option Byte)) : (s.setArrivals l).mem = s.mem := rfl
@[simp] theorem State.setArrivals_kbd (s : State) (l : List (Option Byte)) : (s.setArrivals l).kbd = s.kbd := rfl
@[simp] theorem State.setArrivals_out (s : State) (l : List (Option Byte)) : (s.setArrivals l).out = s.out := rfl
@[simp] theorem State.setArrivals_held (s : State) (l : List (Option Byte)) : (s.setArrivals l).held = s.held := rfl
@[simp] theorem State.setArrivals_arrivals (s : State) (l : List (Option Byte)) : (s.setArrivals l).arrivals = l := rfl
@[simp] theorem State.setArrivals_reg (s : State) (l : List (Option Byte)) (q : RegId) : (s.setArrivals l).reg q = s.reg q := rfl
@[simp] theorem State.setArrivals_cell (s : State) (l : List (Option Byte)) (a : Word) : (s.setArrivals l).cell a = s.cell a := rfl

@[simp] theorem State.setMem_cell (s : State) (m : Memory) (a : Word) : (s.setMem m).cell a = m.read a.toNat := rfl

/-! ### Writing a general register -/

@[simp] theorem State.setReg_pc (s : State) (r : RegId) (v : Word) : (s.setReg r v).pc = s.pc := rfl
@[simp] theorem State.setReg_cond (s : State) (r : RegId) (v : Word) : (s.setReg r v).cond = s.cond := rfl
@[simp] theorem State.setReg_run (s : State) (r : RegId) (v : Word) : (s.setReg r v).run = s.run := rfl
@[simp] theorem State.setReg_mem (s : State) (r : RegId) (v : Word) : (s.setReg r v).mem = s.mem := rfl
@[simp] theorem State.setReg_kbd (s : State) (r : RegId) (v : Word) : (s.setReg r v).kbd = s.kbd := rfl
@[simp] theorem State.setReg_out (s : State) (r : RegId) (v : Word) : (s.setReg r v).out = s.out := rfl
@[simp] theorem State.setReg_held (s : State) (r : RegId) (v : Word) : (s.setReg r v).held = s.held := rfl
@[simp] theorem State.setReg_arrivals (s : State) (r : RegId) (v : Word) : (s.setReg r v).arrivals = s.arrivals := rfl
@[simp] theorem State.setReg_cell (s : State) (r : RegId) (v : Word) (a : Word) : (s.setReg r v).cell a = s.cell a := rfl

/-- A register reads as the value last written to it, and a write leaves every other register alone. -/
@[simp] theorem State.setReg_reg (s : State) (r q : RegId) (v : Word) :
    (s.setReg r v).reg q = if q = r then v else s.reg q := by
  simp [State.reg, State.setReg, Vector.getElem_set, BitVec.toNat_inj, eq_comm]

/-- Two states agree in all registers exactly when their register files are equal. -/
theorem State.regs_ext {s t : State} (h : ∀ q : RegId, s.reg q = t.reg q) : s.regs = t.regs := by
  apply Vector.ext
  intro i hi
  have h' := h (BitVec.ofNat 3 i)
  simpa [State.reg, BitVec.toNat_ofNat, Nat.mod_eq_of_lt hi] using h'

/-! ### Writing a cell -/

@[simp] theorem State.setCell_regs (s : State) (a v : Word) : (s.setCell a v).regs = s.regs := rfl
@[simp] theorem State.setCell_pc (s : State) (a v : Word) : (s.setCell a v).pc = s.pc := rfl
@[simp] theorem State.setCell_cond (s : State) (a v : Word) : (s.setCell a v).cond = s.cond := rfl
@[simp] theorem State.setCell_run (s : State) (a v : Word) : (s.setCell a v).run = s.run := rfl
@[simp] theorem State.setCell_mem (s : State) (a v : Word) : (s.setCell a v).mem = s.mem.write a.toNat v := rfl
@[simp] theorem State.setCell_kbd (s : State) (a v : Word) : (s.setCell a v).kbd = s.kbd := rfl
@[simp] theorem State.setCell_out (s : State) (a v : Word) : (s.setCell a v).out = s.out := rfl
@[simp] theorem State.setCell_held (s : State) (a v : Word) : (s.setCell a v).held = s.held := rfl
@[simp] theorem State.setCell_arrivals (s : State) (a v : Word) : (s.setCell a v).arrivals = s.arrivals := rfl
@[simp] theorem State.setCell_reg (s : State) (a v : Word) (q : RegId) : (s.setCell a v).reg q = s.reg q := rfl

/-! ### Updates made of these -/

theorem State.setcc_eq (s : State) (v : Word) : s.setcc v = s.setCond (condOf v) := rfl

@[simp] theorem State.writeResult_eq (s : State) (dr : RegId) (v : Word) :
    s.writeResult dr v = (s.setReg dr v).setCond (condOf v) := rfl

@[simp] theorem State.link_eq (s : State) : s.link = s.setReg linkReg s.pc := rfl

/-- With `TRAP_LINKS_R7` false (`45_trap.md` rule R158 (b)) a recognised TRAP begins with its service. -/
@[simp] theorem State.trapEntry_eq (s : State) : s.trapEntry = s := rfl

@[simp] theorem State.raiseIllegal_eq (s : State) (cause : Cause) (ir : Word) :
    s.raiseIllegal cause ir = s.setRun (.faulted cause (s.pc - 1#16) ir) := rfl

@[simp] theorem State.setKbd_self (s : State) : s.setKbd s.kbd = s := rfl
@[simp] theorem State.setHeld_self (s : State) : s.setHeld s.held = s := rfl

/-! ### Reset -/

@[simp] theorem State.resetWith_pc (m : Memory) (l : List (Option Byte)) : (State.resetWith m l).pc = Config.pcStart := rfl
@[simp] theorem State.resetWith_cond (m : Memory) (l : List (Option Byte)) : (State.resetWith m l).cond = 0b000#3 := rfl
@[simp] theorem State.resetWith_run (m : Memory) (l : List (Option Byte)) : (State.resetWith m l).run = .running := rfl
@[simp] theorem State.resetWith_mem (m : Memory) (l : List (Option Byte)) : (State.resetWith m l).mem = m := rfl
@[simp] theorem State.resetWith_kbd (m : Memory) (l : List (Option Byte)) : (State.resetWith m l).kbd = none := rfl
@[simp] theorem State.resetWith_out (m : Memory) (l : List (Option Byte)) : (State.resetWith m l).out = [] := rfl
@[simp] theorem State.resetWith_held (m : Memory) (l : List (Option Byte)) : (State.resetWith m l).held = none := rfl
@[simp] theorem State.resetWith_arrivals (m : Memory) (l : List (Option Byte)) :
    (State.resetWith m l).arrivals = l := rfl

end Sys2Proof.Machine
end

