-- ==== Sys2Proof/Laws/Memory.lean ====
section
/-! SUPPORT. The laws of the plain storage: a read after a write, and that every write keeps the canonical form. -/

namespace Sys2Proof.Machine

open Sys2Proof

/-- Every address listed is above `a`. -/
theorem Memory.read_of_lt {m : Memory} {a : Nat} (h : ∀ e ∈ m, a < e.1) : Memory.read m a = Memory.unlisted := by
  induction m with
  | nil => rfl
  | cons e m ih =>
    have he : a < e.1 := h e (by simp)
    simp only [Memory.read, if_neg (Nat.ne_of_lt he)]
    exact ih fun x hx => h x (by simp [hx])

theorem Memory.read_push_ne (m : Memory) {a c : Nat} (v : Word) (h : c ≠ a) :
    Memory.read (Memory.push a v m) c = Memory.read m c := by
  unfold Memory.push
  split
  · rfl
  · simp [Memory.read, h]

/-- A write leaves every other cell alone, whatever the list. -/
theorem Memory.read_write_ne (m : Memory) {a c : Nat} (v : Word) (h : c ≠ a) :
    Memory.read (Memory.write m a v) c = Memory.read m c := by
  induction m with
  | nil => exact Memory.read_push_ne [] v h
  | cons e m ih =>
    simp only [Memory.write]
    split
    · exact Memory.read_push_ne _ v h
    · split
      · next hab => simp [Memory.read_push_ne _ v h, Memory.read, ← hab, h]
      · simp [Memory.read, ih]

theorem Memory.read_push_self {m : Memory} {a : Nat} (v : Word) (h : ∀ e ∈ m, a < e.1) :
    Memory.read (Memory.push a v m) a = v := by
  unfold Memory.push
  split
  · next hv => rw [Memory.read_of_lt h, hv]
  · simp [Memory.read]

/-- A cell reads as the value last written to it. -/
theorem Memory.read_write_self {m : Memory} (h : m.wf) (a : Nat) (v : Word) :
    Memory.read (Memory.write m a v) a = v := by
  induction m with
  | nil => exact Memory.read_push_self v (by simp)
  | cons e m ih =>
    obtain ⟨hp, hb⟩ := h
    rw [List.pairwise_cons] at hp
    simp only [Memory.write]
    split
    · next hlt =>
      refine Memory.read_push_self v fun x hx => ?_
      rcases List.mem_cons.1 hx with rfl | hx
      · exact hlt
      · exact Nat.lt_trans hlt (hp.1 x hx)
    · split
      · next hab => exact Memory.read_push_self v fun x hx => hab ▸ hp.1 x hx
      · next hne =>
        simp only [Memory.read, if_neg hne]
        exact ih ⟨hp.2, fun x hx => hb x (by simp [hx])⟩

theorem Memory.mem_push {m : Memory} {a : Nat} {v : Word} {e : Nat × Word} (h : e ∈ Memory.push a v m) :
    (e = (a, v) ∧ v ≠ Memory.unlisted) ∨ e ∈ m := by
  unfold Memory.push at h
  split at h
  · exact .inr h
  · next hv => exact (List.mem_cons.1 h).imp (fun he => ⟨he, hv⟩) id

theorem Memory.mem_write {m : Memory} {a : Nat} {v : Word} {e : Nat × Word} (h : e ∈ Memory.write m a v) :
    (e = (a, v) ∧ v ≠ Memory.unlisted) ∨ e ∈ m := by
  induction m with
  | nil => exact Memory.mem_push h
  | cons x m ih =>
    simp only [Memory.write] at h
    split at h
    · exact Memory.mem_push h
    · split at h
      · exact (Memory.mem_push h).imp id (List.mem_cons_of_mem _)
      · rcases List.mem_cons.1 h with rfl | h
        · exact .inr (by simp)
        · exact (ih h).imp id (List.mem_cons_of_mem _)

theorem Memory.push_sorted {m : Memory} {a : Nat} (v : Word) (hs : m.Pairwise (fun x y => x.1 < y.1))
    (h : ∀ e ∈ m, a < e.1) : (Memory.push a v m).Pairwise (fun x y => x.1 < y.1) := by
  unfold Memory.push
  split
  · exact hs
  · exact List.pairwise_cons.2 ⟨h, hs⟩

theorem Memory.write_sorted {m : Memory} (hs : m.Pairwise (fun x y => x.1 < y.1)) (a : Nat) (v : Word) :
    (Memory.write m a v).Pairwise (fun x y => x.1 < y.1) := by
  induction m with
  | nil => exact Memory.push_sorted v hs (by simp)
  | cons e m ih =>
    have hc := List.pairwise_cons.1 hs
    simp only [Memory.write]
    split
    · next hlt =>
      refine Memory.push_sorted v hs fun x hx => ?_
      rcases List.mem_cons.1 hx with rfl | hx
      · exact hlt
      · exact Nat.lt_trans hlt (hc.1 x hx)
    · split
      · next hab => exact Memory.push_sorted v hc.2 fun x hx => hab ▸ hc.1 x hx
      · next h1 h2 =>
        refine List.pairwise_cons.2 ⟨fun x hx => ?_, ih hc.2⟩
        rcases Memory.mem_write hx with ⟨rfl, -⟩ | hx
        · exact Nat.lt_of_le_of_ne (Nat.le_of_not_lt h1) (fun h => h2 h.symm)
        · exact hc.1 x hx

/-- Every write of a cell of the address space keeps the canonical form. -/
theorem Memory.write_wf {m : Memory} (h : m.wf) {a : Nat} (ha : a < Config.memCells) (v : Word) :
    (Memory.write m a v).wf := by
  refine ⟨Memory.write_sorted h.1 a v, fun e he => ?_⟩
  rcases Memory.mem_write he with ⟨rfl, hv⟩ | he
  · exact ⟨ha, hv⟩
  · exact h.2 e he

/-- `init_mem` of `State.reset` has the canonical form. -/
theorem State.reset_mem_wf : State.reset.mem.wf := by decide

/-! ### Cells of a state -/

theorem State.toNat_lt_memCells (a : Word) : a.toNat < Config.memCells := a.isLt

theorem State.setCell_cell_ne (s : State) {a b : Word} (v : Word) (h : b ≠ a) :
    (s.setCell a v).cell b = s.cell b :=
  Memory.read_write_ne _ _ fun hn => h (BitVec.eq_of_toNat_eq hn)

theorem State.setCell_cell_self {s : State} (h : s.mem.wf) (a v : Word) : (s.setCell a v).cell a = v :=
  Memory.read_write_self h _ _

theorem State.setCell_wf {s : State} (h : s.mem.wf) (a v : Word) : (s.setCell a v).mem.wf :=
  Memory.write_wf h (State.toNat_lt_memCells a) v

end Sys2Proof.Machine
end

