-- ==== Sys2Proof/Laws/Ops.lean ====
section
/-! SUPPORT. For each shared operation, once, everything it can do. -/

namespace Sys2Proof.Machine

open Sys2Proof

/-! ### The memory primitives -/

@[simp] theorem kbdr_ne_kbsr : Config.kbdrAddr ≠ Config.kbsrAddr := by decide

theorem State.memRead_ordinary (s : State) {a : Word} (h : Ordinary a) : s.memRead a = some (s.cell a, s) := by
  simp [State.memRead, h.1, h.2]

theorem State.memRead_kbsr (s : State) : s.memRead Config.kbsrAddr = some (s.kbsr, s) := by
  simp [State.memRead]

theorem State.memRead_kbdr_full {s : State} {c : Byte} (h : s.kbd = some c) :
    s.memRead Config.kbdrAddr = some (zext c, s.setKbd none) := by
  simp [State.memRead, State.inChar, h]

theorem State.memRead_kbdr_empty {s : State} (h : s.kbd = none) : s.memRead Config.kbdrAddr = none := by
  simp [State.memRead, State.inChar, h]

/-- All that a read which gives a value can have done. -/
theorem State.memRead_some {s s' : State} {a v : Word} (h : s.memRead a = some (v, s')) :
    (a = Config.kbsrAddr ∧ v = s.kbsr ∧ s' = s) ∨
    (a = Config.kbdrAddr ∧ (∃ c, s.kbd = some c ∧ v = zext c) ∧ s' = s.setKbd none) ∨
    (Ordinary a ∧ v = s.cell a ∧ s' = s) := by
  by_cases h1 : a = Config.kbsrAddr
  · subst h1
    rw [State.memRead_kbsr] at h
    obtain ⟨rfl, rfl⟩ := Prod.mk.inj (Option.some.inj h)
    exact .inl ⟨rfl, rfl, rfl⟩
  · by_cases h2 : a = Config.kbdrAddr
    · subst h2
      cases hk : s.kbd with
      | none => rw [State.memRead_kbdr_empty hk] at h; cases h
      | some c =>
        rw [State.memRead_kbdr_full hk] at h
        obtain ⟨rfl, rfl⟩ := Prod.mk.inj (Option.some.inj h)
        exact .inr (.inl ⟨rfl, ⟨c, rfl, rfl⟩, rfl⟩)
    · rw [State.memRead_ordinary s ⟨h1, h2⟩] at h
      obtain ⟨rfl, rfl⟩ := Prod.mk.inj (Option.some.inj h)
      exact .inr (.inr ⟨⟨h1, h2⟩, rfl, rfl⟩)

/-- A read waits exactly when it is a read of KBDR and the slot is empty. -/
theorem State.memRead_none {s : State} {a : Word} :
    s.memRead a = none ↔ a = Config.kbdrAddr ∧ s.kbd = none := by
  constructor
  · intro h
    by_cases h1 : a = Config.kbsrAddr
    · subst h1; rw [State.memRead_kbsr] at h; cases h
    · by_cases h2 : a = Config.kbdrAddr
      · subst h2
        cases hk : s.kbd with
        | none => exact ⟨rfl, rfl⟩
        | some c => rw [State.memRead_kbdr_full hk] at h; cases h
      · rw [State.memRead_ordinary s ⟨h1, h2⟩] at h; cases h
  · rintro ⟨rfl, hk⟩
    exact State.memRead_kbdr_empty hk

/-- A read changes the keyboard slot at most, and only by emptying it. -/
theorem State.memRead_changes {s s' : State} {a v : Word} (h : s.memRead a = some (v, s')) :
    s' = s ∨ (a = Config.kbdrAddr ∧ ∃ c, s.kbd = some c ∧ s' = s.setKbd none) := by
  rcases State.memRead_some h with ⟨-, -, h'⟩ | ⟨ha, ⟨c, hc, -⟩, h'⟩ | ⟨-, -, h'⟩
  · exact .inl h'
  · exact .inr ⟨ha, c, hc, h'⟩
  · exact .inl h'

/-- A read does not look at OUT. -/
theorem State.memRead_emit (s : State) (l : List Byte) (a : Word) :
    (s.emit l).memRead a = (s.memRead a).map fun r => (r.1, r.2.emit l) := by
  cases hr : s.memRead a with
  | none => simpa using (State.memRead_none (s := s.emit l)).2 ((State.memRead_none (s := s)).1 hr)
  | some r =>
    obtain ⟨v, s'⟩ := r
    rcases State.memRead_some hr with ⟨rfl, rfl, rfl⟩ | ⟨rfl, ⟨c, hc, rfl⟩, rfl⟩ | ⟨ho, rfl, rfl⟩
    · exact State.memRead_kbsr (s'.emit l)
    · exact State.memRead_kbdr_full (s := s.emit l) hc
    · exact State.memRead_ordinary _ ho

/-- A read does not look at the instruction in progress. -/
theorem State.memRead_setHeld (s : State) (h : Option Held) (a : Word) :
    (s.setHeld h).memRead a = (s.memRead a).map fun r => (r.1, r.2.setHeld h) := by
  cases hr : s.memRead a with
  | none => simpa using (State.memRead_none (s := s.setHeld h)).2 ((State.memRead_none (s := s)).1 hr)
  | some r =>
    obtain ⟨v, s'⟩ := r
    rcases State.memRead_some hr with ⟨rfl, rfl, rfl⟩ | ⟨rfl, ⟨c, hc, rfl⟩, rfl⟩ | ⟨ho, rfl, rfl⟩
    · exact State.memRead_kbsr (s'.setHeld h)
    · exact State.memRead_kbdr_full (s := s.setHeld h) hc
    · exact State.memRead_ordinary _ ho

/-- Nor does the reading of a string. -/
theorem State.readsCells_setHeld (h : Option Held) {ws : List Word} {p : Word} {s s₁ : State}
    (hr : State.ReadsCells ws p s s₁) : State.ReadsCells ws p (s.setHeld h) (s₁.setHeld h) := by
  induction ws generalizing p s with
  | nil =>
    simp only [State.ReadsCells] at hr ⊢
    rw [hr]
  | cons w ws ih =>
    obtain ⟨hw, s', hm, hs⟩ := hr
    exact ⟨hw, s'.setHeld h, by rw [State.memRead_setHeld, hm]; rfl, ih hs⟩

theorem State.memWrite_ordinary (s : State) {a : Word} (v : Word) (h : Ordinary a) : s.memWrite a v = s.setCell a v := by
  simp [State.memWrite, h.1, h.2]

theorem State.memWrite_mapped (s : State) {a : Word} (v : Word) (h : ¬ Ordinary a) : s.memWrite a v = s := by
  have h' : a = Config.kbsrAddr ∨ a = Config.kbdrAddr := by
    by_cases h1 : a = Config.kbsrAddr
    · exact .inl h1
    · exact .inr (by_contra fun h2 => h ⟨h1, h2⟩)
  simp [State.memWrite, h']

/-- All that a write can do. -/
theorem State.memWrite_cases (s : State) (a v : Word) :
    (Ordinary a ∧ s.memWrite a v = s.setCell a v) ∨ (¬ Ordinary a ∧ s.memWrite a v = s) := by
  by_cases h : Ordinary a
  · exact .inl ⟨h, State.memWrite_ordinary s v h⟩
  · exact .inr ⟨h, State.memWrite_mapped s v h⟩

/-! ### The environment -/

theorem State.deliver_empty {s : State} (h : s.kbd = none) (c : Byte) : s.deliver c = s.setKbd (some c) := by
  simp [State.deliver, h]

theorem State.deliver_full {s : State} {d : Byte} (h : s.kbd = some d) (c : Byte) : s.deliver c = s := by
  simp [State.deliver, h]

/-- All that the environment's move can do: nothing; let time pass; or deliver the next character into the empty slot. -/
theorem State.environment_cases (s : State) :
    s.environment = s ∨
    (∃ rest, s.arrivals = none :: rest ∧ s.environment = s.setArrivals rest) ∨
    (∃ c rest, s.kbd = none ∧ s.arrivals = some c :: rest ∧
      s.environment = (s.setArrivals rest).setKbd (some c)) := by
  unfold State.environment
  split
  · exact .inl rfl
  · next rest h => exact .inr (.inl ⟨rest, h, rfl⟩)
  · next c rest h =>
    split
    · next hk => exact .inr (.inr ⟨c, rest, hk, h, by simp [State.deliver, hk]⟩)
    · exact .inl rfl

/-- The environment changes the slot and its own plan only (`10_state.md` rules R27, R33). -/
theorem State.environment_same (s : State) :
    s.environment.regs = s.regs ∧ s.environment.pc = s.pc ∧ s.environment.cond = s.cond ∧
    s.environment.run = s.run ∧ s.environment.mem = s.mem ∧ s.environment.out = s.out ∧
    s.environment.held = s.held := by
  rcases State.environment_cases s with h | ⟨_, _, h⟩ | ⟨_, _, _, _, h⟩ <;> rw [h] <;> simp

/-! ### Fetch -/

theorem State.fetch_some {s s' : State} {ir : Word} (h : s.fetch = some (ir, s')) :
    ∃ s₁, s.memRead s.pc = some (ir, s₁) ∧ s' = s₁.setPc (s.pc + 1#16) := by
  unfold State.fetch at h
  split at h
  · next v s₁ hr =>
    obtain ⟨rfl, rfl⟩ := Prod.mk.inj (Option.some.inj h)
    refine ⟨s₁, hr, ?_⟩
    rcases State.memRead_changes hr with rfl | ⟨-, c, -, rfl⟩ <;> simp
  · cases h

theorem State.fetch_none {s : State} : s.fetch = none ↔ s.pc = Config.kbdrAddr ∧ s.kbd = none := by
  rw [← State.memRead_none]
  unfold State.fetch
  cases h : s.memRead s.pc with
  | none => simp
  | some r => simp

/-! ### The string services -/

@[simp] theorem State.emit_nil (s : State) : s.emit [] = s := by simp [State.emit]

@[simp] theorem State.emit_emit (s : State) (l₁ l₂ : List Byte) : (s.emit l₁).emit l₂ = s.emit (l₁ ++ l₂) := by
  simp [State.emit]

/-- What the loop of a string service does after it has written `l`, in full. -/
theorem State.scan_emit (chars : Word → List Byte) (again : Word → Held) (ws : List Word) :
    ∀ (n : Nat) (p : Word) (s s₁ : State) (l : List Byte), State.ReadsCells ws p s s₁ →
      (∀ s₂, ws.length < n → s₁.memRead (p + BitVec.ofNat 16 ws.length) = some (0x0000#16, s₂) →
        State.scan chars again n p (s.emit l) = s₂.emit (l ++ ws.flatMap chars)) ∧
      (ws.length < n → s₁.memRead (p + BitVec.ofNat 16 ws.length) = none →
        State.scan chars again n p (s.emit l) =
          (s₁.emit (l ++ ws.flatMap chars)).setHeld (some (again (p + BitVec.ofNat 16 ws.length)))) ∧
      (ws.length = n → State.scan chars again n p (s.emit l) =
        (s₁.emit (l ++ ws.flatMap chars)).setHeld (some (again (p + BitVec.ofNat 16 ws.length)))) := by
  induction ws with
  | nil =>
    intro n p s s₁ l h
    simp only [State.ReadsCells] at h
    subst h
    simp only [List.length_nil, BitVec.add_zero, List.flatMap_nil, List.append_nil]
    refine ⟨fun s₂ hn hr => ?_, fun hn hr => ?_, fun hn => ?_⟩
    · obtain ⟨k, rfl⟩ := Nat.exists_eq_succ_of_ne_zero (Nat.ne_of_gt hn)
      simp [State.scan, State.memRead_emit, hr]
    · obtain ⟨k, rfl⟩ := Nat.exists_eq_succ_of_ne_zero (Nat.ne_of_gt hn)
      simp [State.scan, State.memRead_emit, hr]
    · subst hn
      rfl
  | cons w ws ih =>
    intro n p s s₁ l h
    obtain ⟨hw, s', hr, hs⟩ := h
    have haddr : p + BitVec.ofNat 16 (w :: ws).length = (p + 1#16) + BitVec.ofNat 16 ws.length := by
      rw [List.length_cons, BitVec.ofNat_add, BitVec.add_assoc, BitVec.add_comm 1#16]
    cases n with
    | zero => simp
    | succ k =>
      have hstep : State.scan chars again (k + 1) p (s.emit l) =
          State.scan chars again k (p + 1#16) (s'.emit (l ++ chars w)) := by
        simp only [State.scan, State.memRead_emit, hr, Option.map_some, if_neg hw, State.emit_emit]
      obtain ⟨h1, h2, h3⟩ := ih k (p + 1#16) s' s₁ (l ++ chars w) hs
      rw [haddr, hstep, List.flatMap_cons, ← List.append_assoc]
      exact ⟨fun s₂ hn => h1 s₂ (Nat.lt_of_succ_lt_succ hn), fun hn => h2 (Nat.lt_of_succ_lt_succ hn),
        fun hn => h3 (Nat.succ.inj hn)⟩

/-- What the loop of a string service does, in full: after the non-zero cells `ws` it stops at a zero cell, is held at a cell
whose read waits, or has read its `n` cells and goes on in the next step. -/
theorem State.scan_spec (chars : Word → List Byte) (again : Word → Held) (ws : List Word) (n : Nat) (p : Word)
    (s s₁ : State) (h : State.ReadsCells ws p s s₁) :
    (∀ s₂, ws.length < n → s₁.memRead (p + BitVec.ofNat 16 ws.length) = some (0x0000#16, s₂) →
      State.scan chars again n p s = s₂.emit (ws.flatMap chars)) ∧
    (ws.length < n → s₁.memRead (p + BitVec.ofNat 16 ws.length) = none →
      State.scan chars again n p s =
        (s₁.emit (ws.flatMap chars)).setHeld (some (again (p + BitVec.ofNat 16 ws.length)))) ∧
    (ws.length = n → State.scan chars again n p s =
      (s₁.emit (ws.flatMap chars)).setHeld (some (again (p + BitVec.ofNat 16 ws.length)))) := by
  simpa using State.scan_emit chars again ws n p s s₁ [] h

end Sys2Proof.Machine
end

