-- ==== Sys2Proof/Laws/Step.lean ====
section
/-! SUPPORT. What the operations that can wait can do, what a step can do, and one principle for the invariants: a property that
every elementary update keeps is kept by every instruction and every step. -/

namespace Sys2Proof.Machine

open Sys2Proof

/-! ### The operations that can wait -/

theorem State.inChar_full {s : State} {c : Byte} (h : s.kbd = some c) : s.inChar = some (c, s.setKbd none) := by
  simp [State.inChar, h]

theorem State.inChar_empty {s : State} (h : s.kbd = none) : s.inChar = none := by
  simp [State.inChar, h]

theorem State.load_read {s s' : State} {dr : RegId} {ea v : Word} (h : s.memRead ea = some (v, s')) :
    s.load dr ea = (s'.setReg dr v).setCond (condOf v) := by
  simp [State.load, h]

theorem State.load_wait {s : State} {dr : RegId} {ea : Word} (h : s.memRead ea = none) :
    s.load dr ea = s.setHeld (some (.load dr ea)) := by
  simp [State.load, h]

theorem State.loadIndirect_read {s s' : State} {dr : RegId} {pa p : Word} (h : s.memRead pa = some (p, s')) :
    s.loadIndirect dr pa = s'.load dr p := by
  simp [State.loadIndirect, h]

theorem State.loadIndirect_wait {s : State} {dr : RegId} {pa : Word} (h : s.memRead pa = none) :
    s.loadIndirect dr pa = s.setHeld (some (.loadIndirect dr pa)) := by
  simp [State.loadIndirect, h]

theorem State.storeIndirect_read {s s' : State} {sr : RegId} {pa p : Word} (h : s.memRead pa = some (p, s')) :
    s.storeIndirect sr pa = s'.memWrite p (s.reg sr) := by
  rcases State.memRead_changes h with rfl | ⟨-, c, -, rfl⟩ <;> simp [State.storeIndirect, h]

theorem State.storeIndirect_wait {s : State} {sr : RegId} {pa : Word} (h : s.memRead pa = none) :
    s.storeIndirect sr pa = s.setHeld (some (.storeIndirect sr pa)) := by
  simp [State.storeIndirect, h]

theorem State.getc_full {s : State} {c : Byte} (h : s.kbd = some c) :
    s.getc = (s.setKbd none).setReg trapReg (zext c) := by
  simp [State.getc, State.inChar_full h]

theorem State.getc_empty {s : State} (h : s.kbd = none) : s.getc = s.setHeld (some .getc) := by
  simp [State.getc, State.inChar_empty h]

theorem State.inEcho_full {s : State} {c : Byte} (h : s.kbd = some c) :
    s.inEcho = ((s.setKbd none).emit [c]).setReg trapReg (zext c) := by
  simp [State.inEcho, State.inChar_full h]

theorem State.inEcho_empty {s : State} (h : s.kbd = none) : s.inEcho = s.setHeld (some .inEcho) := by
  simp [State.inEcho, State.inChar_empty h]

/-! ### What a step can do -/

/-- An instruction always answers a next state; a step does too, in one of four ways. -/
theorem step_cases {s t : State} (h : step s = .next t) :
    (s.run ≠ .running ∧ t = s) ∨
    (s.run = .running ∧ ∃ k, s.held = some k ∧ t = s.environment.resume k) ∨
    (s.run = .running ∧ s.held = none ∧ s.environment.memRead s.pc = none ∧ t = s.environment) ∨
    (s.run = .running ∧ s.held = none ∧ ∃ ir s₁, s.environment.memRead s.pc = some (ir, s₁) ∧
      exec (decode ir) (s₁.setPc (s.pc + 1#16)) = .next t) := by
  obtain ⟨-, hpc, -, -, -, -, hheld⟩ := State.environment_same s
  unfold step at h
  split at h
  · next hrun =>
    unfold coreMove at h
    rw [hheld] at h
    split at h
    · next k hk =>
      cases h
      exact .inr (.inl ⟨hrun, k, hk, rfl⟩)
    · next hk =>
      split at h
      · next ir s' hf =>
        obtain ⟨s₁, hr, rfl⟩ := State.fetch_some hf
        rw [hpc] at hr h
        exact .inr (.inr (.inr ⟨hrun, hk, ir, s₁, hr, h⟩))
      · next hf =>
        cases h
        rw [State.fetch_none, ← State.memRead_none, hpc] at hf
        exact .inr (.inr (.inl ⟨hrun, hk, hf, rfl⟩))
  · next hrun => cases h; exact .inl ⟨by simp [hrun], rfl⟩
  · next hrun => cases h; exact .inl ⟨by simp [hrun], rfl⟩

/-! ### Properties every elementary update keeps -/

/-- A property of states that every elementary update an instruction makes keeps. -/
structure Kept (P : State → Prop) : Prop where
  setReg : ∀ {s : State} (r : RegId) (v : Word), P s → P (s.setReg r v)
  setPc : ∀ {s : State} (v : Word), P s → P (s.setPc v)
  setFlags : ∀ {s : State} (v : Word), P s → P (s.setCond (condOf v))
  setRun : ∀ {s : State} (r : Run), P s → P (s.setRun r)
  setCell : ∀ {s : State} (a v : Word), Ordinary a → P s → P (s.setCell a v)
  emptySlot : ∀ {s : State}, P s → P (s.setKbd none)
  emit : ∀ {s : State} (l : List Byte), P s → P (s.emit l)
  hold : ∀ {s : State} {h : Held}, h.Legal → P s → P (s.setHeld (some h))
  release : ∀ {s : State}, P s → P (s.setHeld none)

variable {P : State → Prop}

theorem Kept.memRead (hP : Kept P) {s s' : State} {a v : Word} (h : s.memRead a = some (v, s')) (hs : P s) : P s' := by
  rcases State.memRead_changes h with rfl | ⟨-, c, -, rfl⟩
  · exact hs
  · exact hP.emptySlot hs

theorem Kept.memWrite (hP : Kept P) {s : State} (a v : Word) (hs : P s) : P (s.memWrite a v) := by
  rcases State.memWrite_cases s a v with ⟨ho, h⟩ | ⟨-, h⟩ <;> rw [h]
  · exact hP.setCell a v ho hs
  · exact hs

theorem Kept.writeResult (hP : Kept P) {s : State} (dr : RegId) (v : Word) (hs : P s) : P (s.writeResult dr v) :=
  hP.setFlags v (hP.setReg dr v hs)

theorem Kept.load (hP : Kept P) {s : State} (dr : RegId) (ea : Word) (hs : P s) : P (s.load dr ea) := by
  cases h : s.memRead ea with
  | none => rw [State.load_wait h]; exact hP.hold (State.memRead_none.1 h).1 hs
  | some r => rw [State.load_read h]; exact hP.setFlags _ (hP.setReg _ _ (hP.memRead h hs))

theorem Kept.loadIndirect (hP : Kept P) {s : State} (dr : RegId) (pa : Word) (hs : P s) : P (s.loadIndirect dr pa) := by
  cases h : s.memRead pa with
  | none => rw [State.loadIndirect_wait h]; exact hP.hold (State.memRead_none.1 h).1 hs
  | some r => rw [State.loadIndirect_read h]; exact hP.load _ _ (hP.memRead h hs)

theorem Kept.storeIndirect (hP : Kept P) {s : State} (sr : RegId) (pa : Word) (hs : P s) :
    P (s.storeIndirect sr pa) := by
  cases h : s.memRead pa with
  | none => rw [State.storeIndirect_wait h]; exact hP.hold (State.memRead_none.1 h).1 hs
  | some r => rw [State.storeIndirect_read h]; exact hP.memWrite _ _ (hP.memRead h hs)

theorem Kept.getc (hP : Kept P) {s : State} (hs : P s) : P s.getc := by
  cases h : s.kbd with
  | none => rw [State.getc_empty h]; exact hP.hold (h := .getc) trivial hs
  | some c => rw [State.getc_full h]; exact hP.setReg _ _ (hP.emptySlot hs)

theorem Kept.inEcho (hP : Kept P) {s : State} (hs : P s) : P s.inEcho := by
  cases h : s.kbd with
  | none => rw [State.inEcho_empty h]; exact hP.hold (h := .inEcho) trivial hs
  | some c => rw [State.inEcho_full h]; exact hP.setReg _ _ (hP.emit _ (hP.emptySlot hs))

theorem Kept.scan (hP : Kept P) {chars : Word → List Byte} {again : Word → Held} (hg : ∀ p, (again p).Legal) :
    ∀ (n : Nat) (p : Word) {s : State}, P s → P (State.scan chars again n p s)
  | 0, p, _, hs => hP.hold (hg p) hs
  | n + 1, p, s, hs => by
    unfold State.scan
    split
    · exact hP.hold (hg p) hs
    · next w s' h =>
      split
      · exact hP.memRead h hs
      · exact Kept.scan hP hg n _ (hP.emit _ (hP.memRead h hs))

theorem Kept.resume (hP : Kept P) {s : State} (h : Held) (hs : P s) : P (s.resume h) := by
  cases h with
  | load dr ea => exact hP.load _ _ (hP.release hs)
  | loadIndirect dr pa => exact hP.loadIndirect _ _ (hP.release hs)
  | storeIndirect sr pa => exact hP.storeIndirect _ _ (hP.release hs)
  | getc => exact hP.getc (hP.release hs)
  | inEcho => exact hP.inEcho (hP.release hs)
  | puts p => exact hP.scan (fun _ => trivial) _ _ (hP.release hs)
  | putsp p => exact hP.scan (fun _ => trivial) _ _ (hP.release hs)

/-- Every instruction keeps such a property. -/
theorem Kept.exec (hP : Kept P) {i : Instr} {s t : State} (h : exec i s = .next t) (hs : P s) : P t := by
  cases i with
  | br nzp off =>
    simp only [Sys2Proof.Machine.exec, execBr] at h
    split at h <;> cases h
    · exact hP.setPc _ hs
    · exact hs
  | addReg dr sr1 sr2 => cases h; exact hP.writeResult _ _ hs
  | addImm dr sr1 imm => cases h; exact hP.writeResult _ _ hs
  | ld dr off => cases h; exact hP.load _ _ hs
  | st sr off => cases h; exact hP.memWrite _ _ hs
  | jsr off => cases h; exact hP.setPc _ (hP.setReg _ _ hs)
  | jsrr base => cases h; exact hP.setPc _ (hP.setReg _ _ hs)
  | andReg dr sr1 sr2 => cases h; exact hP.writeResult _ _ hs
  | andImm dr sr1 imm => cases h; exact hP.writeResult _ _ hs
  | ldr dr base off => cases h; exact hP.load _ _ hs
  | str sr base off => cases h; exact hP.memWrite _ _ hs
  | rti ignored => cases h; exact hP.setRun _ hs
  | not dr sr => cases h; exact hP.writeResult _ _ hs
  | ldi dr off => cases h; exact hP.loadIndirect _ _ hs
  | sti sr off => cases h; exact hP.storeIndirect _ _ hs
  | jmp base => cases h; exact hP.setPc _ hs
  | reserved ignored => cases h; exact hP.setRun _ hs
  | lea dr off => cases h; exact hP.writeResult _ _ hs
  | trapGetc => cases h; exact hP.getc hs
  | trapOut => cases h; exact hP.emit _ hs
  | trapPuts => cases h; exact hP.scan (fun _ => trivial) _ _ hs
  | trapIn => cases h; exact hP.inEcho (hP.emit _ hs)
  | trapPutsp => cases h; exact hP.scan (fun _ => trivial) _ _ hs
  | trapHalt => cases h; exact hP.setRun _ (hP.emit _ hs)
  | trapUndefined ignored vect => cases h; exact hP.setRun _ hs

/-- Every step keeps such a property, if the environment's move keeps it. -/
theorem Kept.step (hP : Kept P) (he : ∀ s, P s → P s.environment) {s t : State} (h : step s = .next t) (hs : P s) :
    P t := by
  rcases step_cases h with ⟨-, rfl⟩ | ⟨-, k, -, rfl⟩ | ⟨-, -, -, rfl⟩ | ⟨-, -, ir, s₁, hr, hx⟩
  · exact hs
  · exact hP.resume k (he s hs)
  · exact he s hs
  · exact hP.exec hx (hP.setPc _ (hP.memRead hr (he s hs)))

end Sys2Proof.Machine
end

