-- ==== Sys2Proof/Laws/Frames.lean ====
section
/-! SUPPORT. What each operation that can wait leaves alone, whether it completes or waits. -/

namespace Sys2Proof.Machine

open Sys2Proof

theorem State.memRead_frame {s s' : State} {a v : Word} (h : s.memRead a = some (v, s')) :
    s'.regs = s.regs ∧ s'.pc = s.pc ∧ s'.cond = s.cond ∧ s'.run = s.run ∧ s'.mem = s.mem ∧ s'.out = s.out ∧
    s'.held = s.held ∧ s'.arrivals = s.arrivals ∧ (s'.kbd = s.kbd ∨ s'.kbd = none) := by
  rcases State.memRead_changes h with rfl | ⟨-, c, -, rfl⟩ <;> simp

theorem State.memWrite_frame (s : State) (a v : Word) :
    (s.memWrite a v).regs = s.regs ∧ (s.memWrite a v).pc = s.pc ∧ (s.memWrite a v).cond = s.cond ∧
    (s.memWrite a v).run = s.run ∧ (s.memWrite a v).kbd = s.kbd ∧ (s.memWrite a v).out = s.out ∧
    (s.memWrite a v).held = s.held ∧ (s.memWrite a v).arrivals = s.arrivals := by
  rcases State.memWrite_cases s a v with ⟨-, h⟩ | ⟨-, h⟩ <;> rw [h] <;> simp

/-- A write changes at most the cell it addresses. -/
theorem State.memWrite_cell_ne (s : State) {a b : Word} (v : Word) (h : b ≠ a) : (s.memWrite a v).cell b = s.cell b := by
  rcases State.memWrite_cases s a v with ⟨-, hw⟩ | ⟨-, hw⟩ <;> rw [hw]
  exact State.setCell_cell_ne s v h

theorem State.load_frame (s : State) (dr : RegId) (ea : Word) :
    (s.load dr ea).pc = s.pc ∧ (s.load dr ea).run = s.run ∧ (s.load dr ea).mem = s.mem ∧
    (s.load dr ea).out = s.out ∧ (s.load dr ea).arrivals = s.arrivals ∧
    ∀ q, q ≠ dr → (s.load dr ea).reg q = s.reg q := by
  cases h : s.memRead ea with
  | none => rw [State.load_wait h]; simp
  | some r =>
    obtain ⟨v, s'⟩ := r
    rw [State.load_read h]
    rcases State.memRead_changes h with rfl | ⟨-, c, -, rfl⟩ <;>
      exact ⟨rfl, rfl, rfl, rfl, rfl, fun q hq => by simp [hq]⟩

theorem State.loadIndirect_frame (s : State) (dr : RegId) (pa : Word) :
    (s.loadIndirect dr pa).pc = s.pc ∧ (s.loadIndirect dr pa).run = s.run ∧ (s.loadIndirect dr pa).mem = s.mem ∧
    (s.loadIndirect dr pa).out = s.out ∧ (s.loadIndirect dr pa).arrivals = s.arrivals ∧
    ∀ q, q ≠ dr → (s.loadIndirect dr pa).reg q = s.reg q := by
  cases h : s.memRead pa with
  | none => rw [State.loadIndirect_wait h]; simp
  | some r =>
    obtain ⟨p, s'⟩ := r
    rw [State.loadIndirect_read h]
    rcases State.memRead_changes h with rfl | ⟨-, c, -, rfl⟩
    · exact State.load_frame _ dr p
    · exact State.load_frame (s.setKbd none) dr p

theorem State.storeIndirect_frame (s : State) (sr : RegId) (pa : Word) :
    (s.storeIndirect sr pa).regs = s.regs ∧ (s.storeIndirect sr pa).pc = s.pc ∧
    (s.storeIndirect sr pa).cond = s.cond ∧ (s.storeIndirect sr pa).run = s.run ∧
    (s.storeIndirect sr pa).out = s.out ∧ (s.storeIndirect sr pa).arrivals = s.arrivals := by
  cases h : s.memRead pa with
  | none => rw [State.storeIndirect_wait h]; simp
  | some r =>
    obtain ⟨p, s'⟩ := r
    rw [State.storeIndirect_read h]
    obtain ⟨h1, h2, h3, h4, -, h5, -, h6⟩ := State.memWrite_frame s' p (s.reg sr)
    rcases State.memRead_changes h with rfl | ⟨-, c, -, rfl⟩ <;> exact ⟨h1, h2, h3, h4, h5, h6⟩

theorem State.getc_frame (s : State) :
    s.getc.pc = s.pc ∧ s.getc.cond = s.cond ∧ s.getc.run = s.run ∧ s.getc.mem = s.mem ∧ s.getc.out = s.out ∧
    s.getc.arrivals = s.arrivals ∧ ∀ q, q ≠ trapReg → s.getc.reg q = s.reg q := by
  cases h : s.kbd with
  | none => rw [State.getc_empty h]; simp
  | some c => rw [State.getc_full h]; exact ⟨rfl, rfl, rfl, rfl, rfl, rfl, fun q hq => by simp [hq]⟩

theorem State.inEcho_frame (s : State) :
    s.inEcho.pc = s.pc ∧ s.inEcho.cond = s.cond ∧ s.inEcho.run = s.run ∧ s.inEcho.mem = s.mem ∧
    s.out <+: s.inEcho.out ∧ s.inEcho.arrivals = s.arrivals ∧ ∀ q, q ≠ trapReg → s.inEcho.reg q = s.reg q := by
  cases h : s.kbd with
  | none => rw [State.inEcho_empty h]; simp
  | some c =>
    rw [State.inEcho_full h]
    exact ⟨rfl, rfl, rfl, rfl, List.prefix_append _ _, rfl, fun q hq => by simp [hq]⟩

theorem State.scan_frame (chars : Word → List Byte) (again : Word → Held) :
    ∀ (n : Nat) (p : Word) (s : State),
      (State.scan chars again n p s).regs = s.regs ∧ (State.scan chars again n p s).pc = s.pc ∧
      (State.scan chars again n p s).cond = s.cond ∧ (State.scan chars again n p s).run = s.run ∧
      (State.scan chars again n p s).mem = s.mem ∧ (State.scan chars again n p s).arrivals = s.arrivals ∧
      s.out <+: (State.scan chars again n p s).out
  | 0, p, s => ⟨rfl, rfl, rfl, rfl, rfl, rfl, List.prefix_refl _⟩
  | n + 1, p, s => by
    unfold State.scan
    split
    · exact ⟨rfl, rfl, rfl, rfl, rfl, rfl, List.prefix_refl _⟩
    · next w s' h =>
      obtain ⟨h1, h2, h3, h4, h5, h6, -, h7, -⟩ := State.memRead_frame h
      split
      · exact ⟨h1, h2, h3, h4, h5, h7, h6 ▸ List.prefix_refl _⟩
      · obtain ⟨g1, g2, g3, g4, g5, g6, g7⟩ := State.scan_frame chars again n (p + 1#16) (s'.emit (chars w))
        exact ⟨g1.trans h1, g2.trans h2, g3.trans h3, g4.trans h4, g5.trans h5, g6.trans h7,
          List.IsPrefix.trans ⟨chars w, by simp [h6]⟩ g7⟩

/-- Going on with an instruction in progress changes neither PC nor RUN. -/
theorem State.resume_frame (s : State) (h : Held) : (s.resume h).pc = s.pc ∧ (s.resume h).run = s.run := by
  cases h with
  | load dr ea => exact ⟨(State.load_frame _ dr ea).1, (State.load_frame _ dr ea).2.1⟩
  | loadIndirect dr pa => exact ⟨(State.loadIndirect_frame _ dr pa).1, (State.loadIndirect_frame _ dr pa).2.1⟩
  | storeIndirect sr pa =>
    exact ⟨(State.storeIndirect_frame _ sr pa).2.1, (State.storeIndirect_frame _ sr pa).2.2.2.1⟩
  | getc => exact ⟨(State.getc_frame _).1, (State.getc_frame _).2.2.1⟩
  | inEcho => exact ⟨(State.inEcho_frame _).1, (State.inEcho_frame _).2.2.1⟩
  | puts p => exact ⟨(State.scan_frame _ _ _ p _).2.1, (State.scan_frame _ _ _ p _).2.2.2.1⟩
  | putsp p => exact ⟨(State.scan_frame _ _ _ p _).2.1, (State.scan_frame _ _ _ p _).2.2.2.1⟩

end Sys2Proof.Machine
end

