-- ==== Sys2Proof/Laws/PerInstr.lean ====
section
/-! SUPPORT. Statements about every instruction as syntax, one lemma for each constructor. -/

namespace Sys2Proof.Laws.OpcodeField

open Sys2Proof

/-- The opcode of an instruction, as `30_encoding.md` rule R75 numbers it. -/
def number : Instr → BitVec 4
  | .br _ _ => 0b0000#4
  | .addReg _ _ _ => 0b0001#4
  | .addImm _ _ _ => 0b0001#4
  | .ld _ _ => 0b0010#4
  | .st _ _ => 0b0011#4
  | .jsr _ => 0b0100#4
  | .jsrr _ => 0b0100#4
  | .andReg _ _ _ => 0b0101#4
  | .andImm _ _ _ => 0b0101#4
  | .ldr _ _ _ => 0b0110#4
  | .str _ _ _ => 0b0111#4
  | .rti _ => 0b1000#4
  | .not _ _ => 0b1001#4
  | .ldi _ _ => 0b1010#4
  | .sti _ _ => 0b1011#4
  | .jmp _ => 0b1100#4
  | .reserved _ => 0b1101#4
  | .lea _ _ => 0b1110#4
  | .trapGetc => 0b1111#4
  | .trapOut => 0b1111#4
  | .trapPuts => 0b1111#4
  | .trapIn => 0b1111#4
  | .trapPutsp => 0b1111#4
  | .trapHalt => 0b1111#4
  | .trapUndefined _ _ => 0b1111#4

/-- Bits 15 to 12 of the instruction's word are its opcode (`30_encoding.md` rules R71, R75). -/
def Statement (i : Instr) : Prop := (encode i).extractLsb' 12 4 = number i

theorem br (nzp : BitVec 3) (off : BitVec 9) : Statement (.br nzp off) := by
  apply opcode_of_bits <;> simp only [encode, BitVec.getLsbD_append] <;> simp [number]

theorem addReg (dr : RegId) (sr1 : RegId) (sr2 : RegId) : Statement (.addReg dr sr1 sr2) := by
  apply opcode_of_bits <;> simp only [encode, BitVec.getLsbD_append] <;> simp [number]

theorem addImm (dr : RegId) (sr1 : RegId) (imm : BitVec 5) : Statement (.addImm dr sr1 imm) := by
  apply opcode_of_bits <;> simp only [encode, BitVec.getLsbD_append] <;> simp [number]

theorem ld (dr : RegId) (off : BitVec 9) : Statement (.ld dr off) := by
  apply opcode_of_bits <;> simp only [encode, BitVec.getLsbD_append] <;> simp [number]

theorem st (sr : RegId) (off : BitVec 9) : Statement (.st sr off) := by
  apply opcode_of_bits <;> simp only [encode, BitVec.getLsbD_append] <;> simp [number]

theorem jsr (off : BitVec 11) : Statement (.jsr off) := by
  apply opcode_of_bits <;> simp only [encode, BitVec.getLsbD_append] <;> simp [number]

theorem jsrr (base : RegId) : Statement (.jsrr base) := by
  apply opcode_of_bits <;> simp only [encode, BitVec.getLsbD_append] <;> simp [number]

theorem andReg (dr : RegId) (sr1 : RegId) (sr2 : RegId) : Statement (.andReg dr sr1 sr2) := by
  apply opcode_of_bits <;> simp only [encode, BitVec.getLsbD_append] <;> simp [number]

theorem andImm (dr : RegId) (sr1 : RegId) (imm : BitVec 5) : Statement (.andImm dr sr1 imm) := by
  apply opcode_of_bits <;> simp only [encode, BitVec.getLsbD_append] <;> simp [number]

theorem ldr (dr : RegId) (base : RegId) (off : BitVec 6) : Statement (.ldr dr base off) := by
  apply opcode_of_bits <;> simp only [encode, BitVec.getLsbD_append] <;> simp [number]

theorem str (sr : RegId) (base : RegId) (off : BitVec 6) : Statement (.str sr base off) := by
  apply opcode_of_bits <;> simp only [encode, BitVec.getLsbD_append] <;> simp [number]

theorem rti (ignored : BitVec 12) : Statement (.rti ignored) := by
  apply opcode_of_bits <;> simp only [encode, BitVec.getLsbD_append] <;> simp [number]

theorem not (dr : RegId) (sr : RegId) : Statement (.not dr sr) := by
  apply opcode_of_bits <;> simp only [encode, BitVec.getLsbD_append] <;> simp [number]

theorem ldi (dr : RegId) (off : BitVec 9) : Statement (.ldi dr off) := by
  apply opcode_of_bits <;> simp only [encode, BitVec.getLsbD_append] <;> simp [number]

theorem sti (sr : RegId) (off : BitVec 9) : Statement (.sti sr off) := by
  apply opcode_of_bits <;> simp only [encode, BitVec.getLsbD_append] <;> simp [number]

theorem jmp (base : RegId) : Statement (.jmp base) := by
  apply opcode_of_bits <;> simp only [encode, BitVec.getLsbD_append] <;> simp [number]

theorem reserved (ignored : BitVec 12) : Statement (.reserved ignored) := by
  apply opcode_of_bits <;> simp only [encode, BitVec.getLsbD_append] <;> simp [number]

theorem lea (dr : RegId) (off : BitVec 9) : Statement (.lea dr off) := by
  apply opcode_of_bits <;> simp only [encode, BitVec.getLsbD_append] <;> simp [number]

theorem trapGetc : Statement (.trapGetc) := by
  unfold Statement; decide

theorem trapOut : Statement (.trapOut) := by
  unfold Statement; decide

theorem trapPuts : Statement (.trapPuts) := by
  unfold Statement; decide

theorem trapIn : Statement (.trapIn) := by
  unfold Statement; decide

theorem trapPutsp : Statement (.trapPutsp) := by
  unfold Statement; decide

theorem trapHalt : Statement (.trapHalt) := by
  unfold Statement; decide

theorem trapUndefined (ignored : BitVec 4) (vect : BitVec 8) : Statement (.trapUndefined ignored vect) := by
  apply opcode_of_bits <;> simp only [encode, BitVec.getLsbD_append] <;> simp [number]

end Sys2Proof.Laws.OpcodeField
end

