-- ==== Sys2Proof/Tests/Slice0.lean ====
section
/-! SUPPORT. The model's own tests: well-formedness, decoding of words written out from the spec, one or two steps an instruction
from `95_test_vectors.md`, and a witness for the hypotheses of every statement. Expected values come from the spec. -/

namespace Sys2Proof.Tests

open Sys2Proof Sys2Proof.Machine

/-! ### Helpers -/

/-- The state of a step that goes on. -/
def after : Host.Outcome State Fault Refusal → Option State
  | .next t => some t
  | .fault _ => none
  | .refused _ => none

/-- A machine at address `a` with some cells and registers set, otherwise as after reset. -/
def cpu (a : Word) (cells : List (Word × Word)) (rs : List (RegId × Word)) : State :=
  rs.foldl (fun s r => s.setReg r.1 r.2) (cells.foldl (fun s c => s.setCell c.1 c.2) (State.reset.setPc a))

/-- A full keyboard slot. -/
def typed (s : State) (c : Byte) : State := s.setKbd (some c)

/-! ### Well-formedness: the one check refuses its ill-formed terms (`30_encoding.md` rule R81) -/

theorem test_wellFormed_refuses_service_vector_20 : (Instr.trapUndefined 0 0x20).wellFormed = false := by decide
theorem test_wellFormed_refuses_service_vector_25 : (Instr.trapUndefined 7 0x25).wellFormed = false := by decide
theorem test_wellFormed_accepts_vectors_around : (Instr.trapUndefined 0 0x1F).wellFormed = true ∧
    (Instr.trapUndefined 0 0x26).wellFormed = true := by decide

/-! ### Decoding: words written out from the formats of `30_encoding.md` rules R72, R75, R76, the words of `95_test_vectors.md` -/

theorem test_decode_br : decode 0b0000001111111101#16 = .br 0b001 (-3) := by decide
theorem test_decode_add_register : decode 0b0001000001000010#16 = .addReg 0 1 2 := by decide
theorem test_decode_add_register_ignored_bits : decode 0b0001000001011010#16 = .addReg 0 1 2 := by decide
theorem test_decode_add_immediate : decode 0b0001011100110000#16 = .addImm 3 4 (-16) := by decide
theorem test_decode_ld : decode 0b0010001000000110#16 = .ld 1 6 := by decide
theorem test_decode_st : decode 0b0011000000000011#16 = .st 0 3 := by decide
theorem test_decode_jsr : decode 0b0100110000000000#16 = .jsr (-1024) := by decide
theorem test_decode_jsrr : decode 0b0100000011000000#16 = .jsrr 3 := by decide
theorem test_decode_jsrr_ignored_bits : decode 0b0100011011111111#16 = .jsrr 3 := by decide
theorem test_decode_and_register : decode 0b0101000001000010#16 = .andReg 0 1 2 := by decide
theorem test_decode_and_immediate : decode 0b0101001010101111#16 = .andImm 1 2 15 := by decide
theorem test_decode_ldr : decode 0b0110010110111111#16 = .ldr 2 6 (-1) := by decide
theorem test_decode_str : decode 0b0111001010000101#16 = .str 1 2 5 := by decide
theorem test_decode_rti : decode 0b1000101010111100#16 = .rti 0xABC := by decide
theorem test_decode_not : decode 0b1001011100111111#16 = .not 3 4 := by decide
theorem test_decode_not_ignored_bits : decode 0b1001000100000000#16 = .not 0 4 := by decide
theorem test_decode_ldi : decode 0b1010000000000011#16 = .ldi 0 3 := by decide
theorem test_decode_sti : decode 0b1011001000000101#16 = .sti 1 5 := by decide
theorem test_decode_jmp : decode 0b1100111010111111#16 = .jmp 2 := by decide
theorem test_decode_ret : decode 0b1100000111000000#16 = .jmp 7 := by decide
theorem test_decode_reserved : decode 0b1101111111111111#16 = .reserved 0xFFF := by decide
theorem test_decode_lea : decode 0b1110000111111110#16 = .lea 0 (-2) := by decide
theorem test_decode_getc : decode 0b1111111100100000#16 = .trapGetc := by decide
theorem test_decode_out : decode 0b1111000000100001#16 = .trapOut := by decide
theorem test_decode_puts : decode 0b1111000000100010#16 = .trapPuts := by decide
theorem test_decode_in : decode 0b1111000000100011#16 = .trapIn := by decide
theorem test_decode_putsp : decode 0b1111000000100100#16 = .trapPutsp := by decide
theorem test_decode_halt : decode 0b1111000000100101#16 = .trapHalt := by decide
theorem test_decode_trap_undefined : decode 0b1111101000011111#16 = .trapUndefined 0xA 0x1F := by decide

/-- The encoder uses the canonical ignored bits (`30_encoding.md` rule R77): 1 in NOT, 0 elsewhere. -/
theorem test_encode_canonical : encode (.not 3 4) = 0x973F#16 ∧ encode (.jmp 7) = 0xC1C0#16 ∧
    encode (.addReg 0 1 2) = 0x1042#16 ∧ encode (.jsrr 3) = 0x40C0#16 ∧ encode .trapHalt = 0xF025#16 := by decide

theorem test_decodeTableWord_reads_one_word : decodeTableWord 16 0x1042 = some (.addReg 0 1 2) := by decide

/-! ### One step each (`95_test_vectors.md`, part 2) -/

theorem test_add_register_wraps_to_negative :
    (after (step (cpu 0x3000 [(0x3000, 0x1042)] [(1, 0x7FFF), (2, 1)]))).map (fun t => (t.reg 0, t.pc, t.cond)) =
      some (0x8000#16, 0x3001#16, 0b100#3) := by decide

theorem test_add_register_same_registers :
    (after (step (cpu 0x3000 [(0x3000, 0x1241)] [(1, 0x8000)]))).map (fun t => (t.reg 1, t.pc, t.cond)) =
      some (0x0000#16, 0x3001#16, 0b010#3) := by decide

theorem test_add_immediate_signed_overflow :
    (after (step (cpu 0x3000 [(0x3000, 0x14BF)] [(2, 0x8000)]))).map (fun t => (t.reg 2, t.pc, t.cond)) =
      some (0x7FFF#16, 0x3001#16, 0b001#3) := by decide

theorem test_add_immediate_least :
    (after (step (cpu 0x3000 [(0x3000, 0x1730)] [(4, 0x10), (3, 0xAAAA)]))).map (fun t => (t.reg 3, t.reg 4, t.cond)) =
      some (0x0000#16, 0x0010#16, 0b010#3) := by decide

theorem test_and_register :
    (after (step (cpu 0x3000 [(0x3000, 0x5042)] [(1, 0xF0F0), (2, 0x8FF0)]))).map (fun t => (t.reg 0, t.pc, t.cond)) =
      some (0x80F0#16, 0x3001#16, 0b100#3) := by decide

theorem test_and_immediate_extends_the_sign :
    (after (step (cpu 0x3000 [(0x3000, 0x52B0)] [(2, 0xABCD)]))).map (fun t => (t.reg 1, t.pc, t.cond)) =
      some (0xABC0#16, 0x3001#16, 0b100#3) := by decide

theorem test_and_immediate_positive_mask :
    (after (step (cpu 0x3000 [(0x3000, 0x52AF)] [(2, 0xABCD)]))).map (fun t => (t.reg 1, t.pc, t.cond)) =
      some (0x000D#16, 0x3001#16, 0b001#3) := by decide

theorem test_not :
    (after (step (cpu 0x3000 [(0x3000, 0x973F)] [(4, 0x00FF)]))).map (fun t => (t.reg 3, t.pc, t.cond)) =
      some (0xFF00#16, 0x3001#16, 0b100#3) := by decide

theorem test_not_to_zero :
    (after (step (cpu 0x3000 [(0x3000, 0x903F)] [(0, 0xFFFF)]))).map (fun t => (t.reg 0, t.pc, t.cond)) =
      some (0x0000#16, 0x3001#16, 0b010#3) := by decide

theorem test_br_least_offset_taken :
    (after (step ((cpu 0x3000 [(0x3000, 0x0F00)] []).setCond 0b010))).map (fun t => (t.pc, t.cond)) =
      some (0x2F01#16, 0b010#3) := by decide

/-- `BRnzp #5` right after reset: COND is 000, so it is not taken. -/
theorem test_br_not_taken_at_reset :
    (after (step (cpu 0x3000 [(0x3000, 0x0E05)] []))).map (fun t => (t.pc, t.cond)) =
      some (0x3001#16, 0b000#3) := by decide

theorem test_jmp :
    (after (step ((cpu 0x3000 [(0x3000, 0xC080)] [(2, 0x4000)]).setCond 0b100))).map (fun t => (t.pc, t.cond)) =
      some (0x4000#16, 0b100#3) := by decide

theorem test_jsr_at_top_of_memory :
    (after (step (cpu 0xFFFF [(0xFFFF, 0x4800)] [(7, 0x1111)]))).map (fun t => (t.reg 7, t.pc)) =
      some (0x0000#16, 0x0000#16) := by decide

theorem test_jsr_least_offset :
    (after (step (cpu 0x3000 [(0x3000, 0x4C00)] []))).map (fun t => (t.reg 7, t.pc)) =
      some (0x3001#16, 0x2C01#16) := by decide

theorem test_jsrr :
    (after (step (cpu 0x3010 [(0x3010, 0x40C0)] [(3, 0x5000)]))).map (fun t => (t.reg 7, t.pc)) =
      some (0x3011#16, 0x5000#16) := by decide

theorem test_jsrr_r7 :
    (after (step (cpu 0x3010 [(0x3010, 0x41C0)] [(7, 0x1234)]))).map (fun t => (t.reg 7, t.pc)) =
      some (0x3011#16, 0x3011#16) := by decide

theorem test_ld_wraps_past_the_top :
    (after (step (cpu 0xFFF0 [(0xFFF0, 0x20FF), (0x00F0, 0x8001)] []))).map (fun t => (t.reg 0, t.pc, t.cond)) =
      some (0x8001#16, 0xFFF1#16, 0b100#3) := by decide

theorem test_ld_loads_itself :
    (after (step (cpu 0x3001 [(0x3001, 0x23FF)] []))).map (fun t => (t.reg 1, t.pc, t.cond)) =
      some (0x23FF#16, 0x3002#16, 0b001#3) := by decide

theorem test_ldi_dereferences_twice :
    (after (step (cpu 0x3000 [(0x3000, 0xA003), (0x3004, 0x3010), (0x3010, 0x1234)] []))).map
      (fun t => (t.reg 0, t.pc, t.cond)) = some (0x1234#16, 0x3001#16, 0b001#3) := by decide

theorem test_ldi_takes_the_character_from_kbdr :
    (after (step (typed (cpu 0x3004 [(0x3004, 0xA005), (0x300A, 0xFE02)] [(0, 0xAAAA)]) 0x00))).map
      (fun t => (t.reg 0, t.cond, t.kbd)) = some (0x0000#16, 0b010#3, none) := by decide

theorem test_ldr_negative_offset :
    (after (step (cpu 0x3000 [(0x3000, 0x65BF), (0x4000, 0xBEEF)] [(6, 0x4001)]))).map (fun t => (t.reg 2, t.pc, t.cond)) =
      some (0xBEEF#16, 0x3001#16, 0b100#3) := by decide

theorem test_ldr_destination_is_base :
    (after (step (cpu 0x3000 [(0x3000, 0x6240), (0x4000, 0x4001)] [(1, 0x4000)]))).map (fun t => (t.reg 1, t.cond)) =
      some (0x4001#16, 0b001#3) := by decide

theorem test_lea :
    (after (step (cpu 0x3005 [(0x3005, 0xE1FE)] []))).map (fun t => (t.reg 0, t.pc, t.cond)) =
      some (0x3004#16, 0x3006#16, 0b001#3) := by decide

theorem test_lea_at_top_of_memory :
    (after (step (cpu 0xFFFF [(0xFFFF, 0xE000)] [(0, 0xAAAA)]))).map (fun t => (t.reg 0, t.pc, t.cond)) =
      some (0x0000#16, 0x0000#16, 0b010#3) := by decide

theorem test_st :
    (after (step (cpu 0x3005 [(0x3005, 0x3003)] [(0, 0x000F)]))).map (fun t => (t.cell 0x3009, t.pc, t.cond)) =
      some (0x000F#16, 0x3006#16, 0b000#3) := by decide

theorem test_st_overwrites_itself :
    (after (step (cpu 0x3001 [(0x3001, 0x31FF)] [(0, 0xAAAA)]))).map (fun t => (t.cell 0x3001, t.pc)) =
      some (0xAAAA#16, 0x3002#16) := by decide

theorem test_sti :
    (after (step (cpu 0x3002 [(0x3002, 0xB205), (0x3008, 0x4000)] [(1, 0xABCD)]))).map
      (fun t => (t.cell 0x4000, t.cell 0x3008, t.pc)) = some (0xABCD#16, 0x4000#16, 0x3003#16) := by decide

theorem test_sti_to_kbsr_is_discarded :
    (after (step (cpu 0x3002 [(0x3002, 0xB205), (0x3008, 0xFE00)] [(1, 0xABCD)]))).map (fun t => (t.mem, t.pc)) =
      some ([(0x3002, 0xB205#16), (0x3008, 0xFE00#16)], 0x3003#16) := by decide

theorem test_str_wraps_below_zero :
    (after (step (cpu 0x3000 [(0x3000, 0x72BF)] [(1, 0x55AA), (2, 0x0000)]))).map (fun t => (t.cell 0xFFFF, t.pc)) =
      some (0x55AA#16, 0x3001#16) := by decide

theorem test_str_to_kbdr_keeps_the_character :
    (after (step (typed (cpu 0x3000 [(0x3000, 0x7282)] [(1, 0x55AA), (2, 0xFE00)]) 0x41))).map
      (fun t => (t.mem, t.kbd)) = some ([(0x3000, 0x7282#16)], some 0x41#8) := by decide

theorem test_getc_zero_extends :
    (after (step (typed (cpu 0x3000 [(0x3000, 0xFF20)] [(0, 0xFFFF)]) 0x80))).map
      (fun t => (t.reg 0, t.kbd, t.out)) = some (0x0080#16, none, []) := by decide

theorem test_getc_without_character_is_held :
    (after (step (cpu 0x3000 [(0x3000, 0xF020)] [(0, 0xFFFF)]))).map (fun t => (t.reg 0, t.pc, t.held)) =
      some (0xFFFF#16, 0x3001#16, some .getc) := by decide

theorem test_out_writes_the_low_byte :
    (after (step ((cpu 0x3000 [(0x3000, 0xF021)] [(0, 0x1241)]).setCond 0b010))).map
      (fun t => (t.out, t.reg 0, t.cond)) = some ([0x41#8], 0x1241#16, 0b010#3) := by decide

theorem test_puts_high_bytes_present :
    (after (step (cpu 0x3000 [(0x3000, 0xF022), (0x3010, 0x4100), (0x3011, 0x1242)] [(0, 0x3010)]))).map
      (fun t => (t.out, t.reg 0, t.held)) = some ([0x00#8, 0x42#8], 0x3010#16, none) := by decide

theorem test_puts_wraps_to_address_zero :
    (after (step (cpu 0x3000 [(0x3000, 0xF022), (0xFFFF, 0x0041), (0x0000, 0x0042)] [(0, 0xFFFF)]))).map
      (fun t => (t.out, t.pc)) = some ([0x41#8, 0x42#8], 0x3001#16) := by decide

/-- `<PROMPT>` is the 19 bytes of `00_scope.md` rule R5's default, then the echo 7A. -/
theorem test_in :
    (after (step (typed (cpu 0x3000 [(0x3000, 0xF023)] []) 0x7A))).map
      (fun t => (t.out.length, t.out.getLast?, t.reg 0, t.kbd)) = some (20, some 0x7A#8, 0x007A#16, none) := by decide

theorem test_putsp :
    (after (step (cpu 0x3000 [(0x3000, 0xF024), (0x3010, 0x6548), (0x3011, 0x0079)] [(0, 0x3010)]))).map
      (fun t => (t.out, t.pc)) = some ([0x48#8, 0x65#8, 0x79#8], 0x3001#16) := by decide

theorem test_putsp_low_byte_zero :
    (after (step (cpu 0x3000 [(0x3000, 0xF024), (0x3010, 0x4100)] [(0, 0x3010)]))).map (fun t => t.out) =
      some [0x00#8, 0x41#8] := by decide

theorem test_halt :
    (after (step (cpu 0x3000 [(0x3000, 0xF025)] [(7, 0x1111)]))).map (fun t => (t.out, t.run, t.pc, t.reg 7)) =
      some ([0x48#8, 0x41#8, 0x4C#8, 0x54#8, 0x0A#8], .halted, 0x3001#16, 0x1111#16) := by decide

theorem test_trap_undefined :
    (after (step (cpu 0x3000 [(0x3000, 0xF026)] [(7, 0x1111)]))).map (fun t => (t.run, t.pc, t.reg 7, t.out)) =
      some (.faulted .badTrapVector 0x3000 0xF026, 0x3001#16, 0x1111#16, []) := by decide

theorem test_rti :
    (after (step ((cpu 0x3005 [(0x3005, 0x8ABC)] []).setCond 0b010))).map (fun t => (t.run, t.pc, t.cond)) =
      some (.faulted .rti 0x3005 0x8ABC, 0x3006#16, 0b010#3) := by decide

theorem test_reserved_at_top_of_memory :
    (after (step (cpu 0xFFFF [(0xFFFF, 0xDFFF)] []))).map (fun t => (t.run, t.pc)) =
      some (.faulted .reserved 0xFFFF 0xDFFF, 0x0000#16) := by decide

/-! ### Fetching from the keyboard registers, the environment, and `withFetchWord` -/

theorem test_fetch_from_kbsr_with_character :
    (after (step (typed (cpu 0xFE00 [] []) 0x41))).map (fun t => (t.run, t.pc, t.kbd)) =
      some (.faulted .rti 0xFE00 0x8000, 0xFE01#16, some 0x41#8) := by decide

theorem test_fetch_from_kbdr_takes_the_character :
    (after (step (typed (cpu 0xFE02 [] []) 0x41))).map (fun t => (t.run, t.pc, t.kbd)) =
      some (.running, 0xFE03#16, none) := by decide

theorem test_environment_delivers_before_the_cycle :
    (after (step ((cpu 0x3000 [(0x3000, 0xF020)] []).setArrivals [some 0x62]))).map (fun t => (t.reg 0, t.arrivals)) =
      some (0x0062#16, []) := by decide

theorem test_withFetchWord_runs_the_word :
    (after (step (State.reset.withFetchWord 16 0x127F))).map (fun t => (t.reg 1, t.pc, t.cond)) =
      some (0xFFFF#16, 0x3001#16, 0b100#3) := by decide

/-! ### Witnesses: for every statement with hypotheses, a state and operands that meet them, one for each clause -/

theorem witness_SignExtensionCopiesTheTopBit : (1 ≤ 5 ∧ 5 ≤ 16) ∧ (1 ≤ 1 ∧ 1 ≤ 16) ∧
    sext 0b11111#5 = 0xFFFF#16 ∧ sext 0b01111#5 = 0x000F#16 ∧ sext 1#1 = 0xFFFF#16 ∧ sext 0x8000#16 = 0x8000#16 := by
  decide

theorem witness_SetccFollowsTheSignOfTheValue :
    (0x8000#16).toInt < 0 ∧ (0x0000#16).toInt = 0 ∧ 0 < (0x0001#16).toInt := by decide

theorem witness_OrdinaryReadReturnsTheCell : 0xFE01#16 ≠ 0xFE00#16 ∧ 0xFE01#16 ≠ 0xFE02#16 := by decide

theorem witness_KeyboardRegistersReadTheSlot : State.reset.kbd = none ∧ (typed State.reset 0x41).kbd = some 0x41#8 := by
  decide

theorem witness_OrdinaryWriteThenReadGivesTheValue :
    State.reset.mem.wf ∧ 0xFE01#16 ≠ 0xFE00#16 ∧ 0xFE01#16 ≠ 0xFE02#16 := by decide

theorem witness_WritesToKeyboardRegistersAreLost :
    (0xFE00#16 = 0xFE00#16 ∨ 0xFE00#16 = 0xFE02#16) ∧ (0xFE02#16 = 0xFE00#16 ∨ 0xFE02#16 = 0xFE02#16) := by decide

theorem witness_ResetMeetsTheInvariant : Memory.wf [] ∧ Memory.wf [(0x0000, 0x1234#16), (0xFFFF, 0x0001#16)] := by decide

theorem reset_inv : State.reset.Inv := ⟨by decide, by decide, trivial⟩

theorem witness_StepRunsTheDecodedInstruction_ordinary :
    State.reset.run = .running ∧ State.reset.held = none ∧
    State.reset.environment.memRead State.reset.pc = some (0x0000#16, State.reset) ∧
    State.reset.pc ≠ 0xFE00#16 ∧ State.reset.pc ≠ 0xFE02#16 := by decide

theorem witness_StepRunsTheDecodedInstruction_keyboard :
    (typed (cpu 0xFE02 [] []) 0x41).run = .running ∧ (typed (cpu 0xFE02 [] []) 0x41).held = none ∧
    (typed (cpu 0xFE02 [] []) 0x41).environment.memRead 0xFE02 = some (0x0041#16, cpu 0xFE02 [] []) := by decide

theorem witness_FetchFromKeyboardDataWaits :
    (cpu 0xFE02 [] []).run = .running ∧ (cpu 0xFE02 [] []).held = none ∧ (cpu 0xFE02 [] []).pc = 0xFE02#16 ∧
    (cpu 0xFE02 [] []).environment.kbd = none := by decide

theorem witness_StoppedMachineTakesNoCycle :
    (State.reset.setRun .halted).run ≠ .running ∧ (State.reset.setRun (.faulted .rti 0x3000 0x8000)).run ≠ .running := by
  decide

/-- The state in which the first of the two instructions of program P5 is executed. -/
def beforeStore : State := cpu 0x3002 [(0x3001, 0x3000), (0x3002, 0xD000)] [(0, 0x1265)]

theorem witness_StoreIsSeenByTheVeryNextFetch :
    beforeStore.mem.wf ∧ beforeStore.run = .running ∧ beforeStore.held = none ∧ Ordinary beforeStore.pc ∧
    exec (.st 0 0) beforeStore = .next (beforeStore.setCell 0x3002 0x1265) :=
  ⟨by decide, by decide, by decide, by decide, rfl⟩

/-- An empty and a full slot, each with a character next in the plan; an entry without one; an empty plan. -/
theorem witness_EnvironmentFillsOnlyAnEmptySlot :
    (State.reset.setArrivals [some 0x62]).kbd = none ∧ (State.reset.setArrivals [some 0x62]).arrivals = some 0x62 :: [] ∧
    (typed (State.reset.setArrivals [some 0x62]) 0x41).kbd = some 0x41#8 ∧
    (typed (State.reset.setArrivals [some 0x62]) 0x41).arrivals = some 0x62 :: [] ∧
    (State.reset.setArrivals [none]).arrivals = none :: [] ∧ State.reset.arrivals = [] := by decide

/-- LEA as the first instruction: a step that changes a register and COND. -/
def leaState : State := cpu 0x3005 [(0x3005, 0xE1FE)] []

theorem leaState_step : step leaState = .next (((leaState.setPc 0x3006).setReg 0 0x3004).setCond 0b001) := rfl

theorem witness_StepKeepsTheInvariant : leaState.Inv ∧ ∃ t, step leaState = .next t :=
  ⟨⟨by decide, by decide, trivial⟩, _, leaState_step⟩

theorem witness_CondStaysOneHotOnceSet :
    (leaState.setCond 0b100).CondOneHot ∧ (leaState.setCond 0b001).CondOneHot ∧
    ∃ t, step (leaState.setCond 0b100) = .next t := ⟨by decide, by decide, _, rfl⟩

theorem witness_OutputIsOnlyAppendedTo : ∃ t, step leaState = .next t := ⟨_, leaState_step⟩

/-- A step that takes one character, and one that takes none. -/
theorem witness_InputIsConsumedInOrderOneCharacterAStep :
    (after (step (typed (cpu 0xFE02 [] []) 0x41))).map State.pendingInput = some [] ∧
    (after (step (typed leaState 0x41))).map State.pendingInput = some [0x41#8] := by decide

theorem witness_RunEndsOnlyByHaltOrIllegalOpcode :
    (∃ t, step (cpu 0x3000 [(0x3000, 0xF025)] []) = .next t ∧ t.run = .halted) ∧
    (∃ t, step (cpu 0x3000 [(0x3000, 0x8000)] []) = .next t ∧ t.run = .faulted .rti 0x3000 0x8000) ∧
    (∃ t, step (cpu 0x3000 [(0x3000, 0xD000)] []) = .next t ∧ t.run = .faulted .reserved 0x3000 0xD000) ∧
    (∃ t, step (cpu 0x3000 [(0x3000, 0xF01F)] []) = .next t ∧ t.run = .faulted .badTrapVector 0x3000 0xF01F) :=
  ⟨⟨_, rfl, by decide⟩, ⟨_, rfl, by decide⟩, ⟨_, rfl, by decide⟩, ⟨_, rfl, by decide⟩⟩

/-- An LDI held at its second read, and the character that lets it go on. -/
def heldLoad : State := typed ((cpu 0x3005 [] []).setHeld (some (.load 0 0xFE02))) 0x41

theorem heldLoad_step : step heldLoad = .next (((cpu 0x3005 [] []).setReg 0 0x0041).setCond 0b001) := rfl

theorem witness_OnlyTheSevenInstructionsChangeCond :
    (∃ t, step leaState = .next t ∧ t.cond ≠ leaState.cond) ∧ (∃ t, step heldLoad = .next t ∧ t.cond ≠ heldLoad.cond) :=
  ⟨⟨_, leaState_step, by decide⟩, ⟨_, heldLoad_step, by decide⟩⟩

theorem witness_RegistersChangeOnlyAsDestinations :
    (∃ t, step leaState = .next t ∧ t.reg 0 ≠ leaState.reg 0) ∧ (∃ t, step heldLoad = .next t ∧ t.reg 0 ≠ heldLoad.reg 0) :=
  ⟨⟨_, leaState_step, by decide⟩, ⟨_, heldLoad_step, by decide⟩⟩

/-- A store about to be fetched, and an STI held at its pointer read with the character now there. -/
def storeState : State := cpu 0x3005 [(0x3005, 0x3003)] [(0, 0x000F)]
def heldStore : State := typed ((cpu 0x3006 [] [(0, 0x000F)]).setHeld (some (.storeIndirect 0 0xFE02))) 0x41

theorem witness_MemoryChangesOnlyByStores :
    (storeState.mem.wf ∧ ∃ t, step storeState = .next t ∧ t.cell 0x3009 ≠ storeState.cell 0x3009) ∧
    (heldStore.mem.wf ∧ ∃ t, step heldStore = .next t ∧ t.cell 0x0041 ≠ heldStore.cell 0x0041) :=
  ⟨⟨by decide, _, rfl, by decide⟩, ⟨by decide, _, rfl, by decide⟩⟩

/-- Two states that differ in the cell behind KBDR. -/
theorem witness_HiddenCellsAreNeverObserved :
    leaState.mem.wf ∧ (leaState.setCell 0xFE02 0x1234).mem.wf ∧ leaState ≠ leaState.setCell 0xFE02 0x1234 ∧
    leaState.SameButHidden (leaState.setCell 0xFE02 0x1234) ∧ ∃ t, step leaState = .next t :=
  ⟨by decide, by decide, by decide,
    ⟨rfl, rfl, rfl, fun _ ha => State.setCell_cell_ne _ _ fun h => ha.2 h, rfl, rfl, rfl, rfl, rfl⟩, _, leaState_step⟩

theorem witness_DecodeInvertsEncode : (Instr.trapUndefined 0xF 0xFF).wellFormed = true ∧ (Instr.br 7 0x1FF).wellFormed = true := by
  decide

theorem witness_DecodingIgnoresOnlyTheIgnoredBits :
    0x105A#16 ≠ 0x1042#16 ∧ 0x105A#16 &&& (decode 0x1042).examined = 0x1042#16 &&& (decode 0x1042).examined := by decide

theorem witness_EveryWordSelectsItsTableRow :
    (opcodeTable[24]? = some (0xF000#16, 0xF000#16) ∧ 0xF020#16 &&& 0xF000#16 = 0xF000#16 ∧ (decode 0xF020).row = 18) ∧
    (opcodeTable[1]? = some (0xF020#16, 0x1000#16) ∧ 0x1042#16 &&& 0xF020#16 = 0x1000#16 ∧ (decode 0x1042).row = 1) := by
  decide

theorem witness_IllegalWordsAreTheThreeClasses :
    State.reset.run = .running ∧ (∃ t, exec (decode 0xF026) State.reset = .next t) ∧
    (∃ t, exec (decode 0xF025) State.reset = .next t) := ⟨by decide, ⟨_, rfl⟩, ⟨_, rfl⟩⟩

/-! The decoding clauses: a word of each opcode, with the steering bit. -/

theorem witness_AddRegisterFormAddsModulo : (0x1042#16).extractLsb' 12 4 = 0b0001#4 ∧ (0x1042#16)[5] = false := by decide
theorem witness_AddImmediateFormAddsTheSignedImmediate :
    (0x1063#16).extractLsb' 12 4 = 0b0001#4 ∧ (0x1063#16)[5] = true := by decide
theorem witness_AndRegisterFormAndsBitwise : (0x5042#16).extractLsb' 12 4 = 0b0101#4 ∧ (0x5042#16)[5] = false := by decide
theorem witness_AndImmediateFormAndsTheSignedImmediate :
    (0x52B0#16).extractLsb' 12 4 = 0b0101#4 ∧ (0x52B0#16)[5] = true := by decide
theorem witness_NotComplementsAllBits : (0x973F#16).extractLsb' 12 4 = 0b1001#4 := by decide
theorem witness_LeaWritesTheAddressAndTheFlags : (0xE1FE#16).extractLsb' 12 4 = 0b1110#4 := by decide

/-- Taken and not taken, the mask 000 and COND 000 among the latter. -/
theorem witness_BranchTakenIffMaskMeetsCond :
    (0x0E05#16).extractLsb' 12 4 = 0b0000#4 ∧
    (∃ i : Nat, (0b010#3).getLsbD i = true ∧ (State.reset.setCond 0b010).cond.getLsbD i = true) ∧
    (∀ i : Nat, (0b111#3).getLsbD i = true → State.reset.cond.getLsbD i = false) ∧
    (∀ i : Nat, (0b000#3).getLsbD i = true → (State.reset.setCond 0b010).cond.getLsbD i = false) :=
  ⟨by decide, ⟨1, by decide⟩, fun i _ => by simp [State.reset], fun i h => by simp at h⟩

theorem witness_JumpGoesToTheBaseRegister : (0xCEBF#16).extractLsb' 12 4 = 0b1100#4 := by decide
theorem witness_JsrLinksAndGoesToTheTarget : (0x4802#16).extractLsb' 12 4 = 0b0100#4 ∧ (0x4802#16)[11] = true := by decide
theorem witness_JsrrLinksThenReadsTheBase : (0x40C0#16).extractLsb' 12 4 = 0b0100#4 ∧ (0x40C0#16)[11] = false := by decide

/-- The read of an ordinary cell, of KBSR, and of KBDR with a character: PC + offset is 0xFE01, 0xFE00, 0xFE02. -/
theorem witness_LdLoadsTheCellAtPcPlusOffset :
    (0x2206#16).extractLsb' 12 4 = 0b0010#4 ∧
    (cpu 0xFE01 [] []).memRead ((cpu 0xFE01 [] []).pc + sext 0#9) = some (0x0000#16, cpu 0xFE01 [] []) ∧
    (cpu 0xFE01 [] []).memRead ((cpu 0xFE01 [] []).pc + sext 0x1FF#9) = some (0x0000#16, cpu 0xFE01 [] []) ∧
    (typed (cpu 0xFE01 [] []) 0x41).memRead ((cpu 0xFE01 [] []).pc + sext 1#9) = some (0x0041#16, cpu 0xFE01 [] []) := by
  decide

theorem witness_LdrLoadsTheCellAtBasePlusOffset :
    (0x65BF#16).extractLsb' 12 4 = 0b0110#4 ∧
    (cpu 0x3001 [] [(6, 0xFE01)]).memRead ((cpu 0x3001 [] [(6, 0xFE01)]).reg 6 + sext 0#6) =
      some (0x0000#16, cpu 0x3001 [] [(6, 0xFE01)]) ∧
    (cpu 0x3001 [] [(6, 0xFE01)]).memRead ((cpu 0x3001 [] [(6, 0xFE01)]).reg 6 + sext 0b111111#6) =
      some (0x0000#16, cpu 0x3001 [] [(6, 0xFE01)]) ∧
    (typed (cpu 0x3001 [] [(6, 0xFE01)]) 0x41).memRead ((cpu 0x3001 [] [(6, 0xFE01)]).reg 6 + sext 1#6) =
      some (0x0041#16, cpu 0x3001 [] [(6, 0xFE01)]) := by decide

/-- Through an ordinary pointer to an ordinary cell, and to KBDR. -/
theorem witness_LdiLoadsThroughThePointer :
    (0xA003#16).extractLsb' 12 4 = 0b1010#4 ∧
    (cpu 0x3001 [(0x3004, 0x3010)] []).memRead ((cpu 0x3001 [(0x3004, 0x3010)] []).pc + sext 3#9) =
      some (0x3010#16, cpu 0x3001 [(0x3004, 0x3010)] []) ∧
    (cpu 0x3001 [(0x3004, 0x3010)] []).memRead 0x3010 = some (0x0000#16, cpu 0x3001 [(0x3004, 0x3010)] []) ∧
    (typed (cpu 0x3001 [(0x3004, 0xFE02)] []) 0x41).memRead ((cpu 0x3001 [(0x3004, 0xFE02)] []).pc + sext 3#9) =
      some (0xFE02#16, typed (cpu 0x3001 [(0x3004, 0xFE02)] []) 0x41) ∧
    (typed (cpu 0x3001 [(0x3004, 0xFE02)] []) 0x41).memRead 0xFE02 =
      some (0x0041#16, cpu 0x3001 [(0x3004, 0xFE02)] []) := by decide

/-- To 0xFE00, 0xFE01 and 0xFE02. -/
theorem witness_StStoresTheRegisterAtPcPlusOffset :
    (0x3003#16).extractLsb' 12 4 = 0b0011#4 ∧ (cpu 0xFE01 [] []).mem.wf ∧
    (cpu 0xFE01 [] []).pc + sext 0x1FF#9 = 0xFE00#16 ∧ (cpu 0xFE01 [] []).pc + sext 0#9 = 0xFE01#16 ∧
    (cpu 0xFE01 [] []).pc + sext 1#9 = 0xFE02#16 := by decide

theorem witness_StrStoresTheRegisterAtBasePlusOffset :
    (0x7285#16).extractLsb' 12 4 = 0b0111#4 ∧ (cpu 0x3001 [] [(2, 0xFE01)]).mem.wf ∧
    (cpu 0x3001 [] [(2, 0xFE01)]).reg 2 + sext 0b111111#6 = 0xFE00#16 ∧
    (cpu 0x3001 [] [(2, 0xFE01)]).reg 2 + sext 0#6 = 0xFE01#16 ∧
    (cpu 0x3001 [] [(2, 0xFE01)]).reg 2 + sext 1#6 = 0xFE02#16 := by decide

/-- Through an ordinary pointer to 0x4000, to 0xFE00, and through KBDR. -/
theorem witness_StiStoresTheRegisterThroughThePointer :
    (0xB205#16).extractLsb' 12 4 = 0b1011#4 ∧
    ((cpu 0x3003 [(0x3008, 0x4000)] []).mem.wf ∧
      (cpu 0x3003 [(0x3008, 0x4000)] []).memRead ((cpu 0x3003 [(0x3008, 0x4000)] []).pc + sext 5#9) =
        some (0x4000#16, cpu 0x3003 [(0x3008, 0x4000)] [])) ∧
    ((cpu 0x3003 [(0x3008, 0xFE00)] []).mem.wf ∧
      (cpu 0x3003 [(0x3008, 0xFE00)] []).memRead ((cpu 0x3003 [(0x3008, 0xFE00)] []).pc + sext 5#9) =
        some (0xFE00#16, cpu 0x3003 [(0x3008, 0xFE00)] [])) ∧
    ((typed (cpu 0xFE02 [] []) 0x41).mem.wf ∧
      (typed (cpu 0xFE02 [] []) 0x41).memRead ((cpu 0xFE02 [] []).pc + sext 0#9) =
        some (0x0041#16, cpu 0xFE02 [] [])) := by decide

theorem witness_GetcPutsTheCharacterInR0 : (typed State.reset 0x80).kbd = some 0x80#8 := by decide
theorem witness_InPromptsEchoesAndPutsTheCharacterInR0 : (typed State.reset 0x7A).kbd = some 0x7A#8 := by decide

/-- A string of two cells and its end; and a string of one cell that comes to KBDR with an empty slot. -/
def hello : State := cpu 0x3001 [(0x3010, 0x6548), (0x3011, 0x0079)] [(0, 0x3010)]
def intoKeyboard : State := cpu 0x3001 [(0xFE01, 0x0041)] [(0, 0xFE01)]

theorem hello_reads : State.ReadsCells [0x6548#16, 0x0079#16] (hello.reg 0#3) hello hello :=
  ⟨by decide, hello, by decide, by decide, hello, by decide, rfl⟩
theorem intoKeyboard_reads : State.ReadsCells [0x0041#16] (intoKeyboard.reg 0#3) intoKeyboard intoKeyboard :=
  ⟨by decide, intoKeyboard, by decide, rfl⟩

theorem witness_PutsWritesLowBytesUntilAZeroCell :
    (State.ReadsCells [0x6548#16, 0x0079#16] (hello.reg 0#3) hello hello ∧ 2 < scanTrip (hello.reg 0#3) ∧
      hello.memRead (hello.reg 0#3 + BitVec.ofNat 16 2) = some (0x0000#16, hello)) ∧
    (State.ReadsCells [0x0041#16] (intoKeyboard.reg 0#3) intoKeyboard intoKeyboard ∧ 1 < scanTrip (intoKeyboard.reg 0#3) ∧
      intoKeyboard.memRead (intoKeyboard.reg 0#3 + BitVec.ofNat 16 1) = none) :=
  ⟨⟨hello_reads, by decide, by decide⟩, intoKeyboard_reads, by decide, by decide⟩

theorem witness_PutspWritesBothBytesUntilAZeroCell :
    (State.ReadsCells [0x6548#16, 0x0079#16] (hello.reg 0#3) hello hello ∧ [0x6548#16, 0x0079#16].length < scanTrip (hello.reg 0#3) ∧
      hello.memRead (hello.reg 0#3 + BitVec.ofNat 16 2) = some (0x0000#16, hello)) ∧
    (State.ReadsCells [0x0041#16] (intoKeyboard.reg 0#3) intoKeyboard intoKeyboard ∧ [0x0041#16].length < scanTrip (intoKeyboard.reg 0#3) ∧
      intoKeyboard.memRead (intoKeyboard.reg 0#3 + BitVec.ofNat 16 1) = none) :=
  ⟨⟨hello_reads, by decide, by decide⟩, intoKeyboard_reads, by decide, by decide⟩

/-! A memory without a zero cell. -/

/-- `n` cells from `a` on that all hold 1. -/
def ones : Nat → Nat → Memory
  | 0, _ => []
  | n + 1, a => (a, 0x0001#16) :: ones n (a + 1)

theorem read_ones : ∀ (n a b : Nat), a ≤ b → b < a + n → Memory.read (ones n a) b = 0x0001#16
  | 0, a, b, h, h' => absurd h' (by omega)
  | n + 1, a, b, h, h' => by
    unfold ones Memory.read
    split
    · rfl
    · exact read_ones n (a + 1) b (by omega) (by omega)

/-- Every cell holds 1 and a character waits; R0 points behind the keyboard registers. -/
def noZero : State := typed ((State.reset.setMem (ones 65536 0)).setReg 0 0xFE03) 0x01

theorem noZero_read {a : Word} (h : a ≠ 0xFE02#16) : ∃ w, w ≠ 0x0000#16 ∧ noZero.memRead a = some (w, noZero) := by
  by_cases hs : a = 0xFE00#16
  · exact ⟨0x8000#16, by decide, by rw [hs]; exact State.memRead_kbsr noZero⟩
  · refine ⟨0x0001#16, by decide, ?_⟩
    rw [State.memRead_ordinary noZero ⟨hs, h⟩]
    have : noZero.cell a = 0x0001#16 := read_ones 65536 0 a.toNat (Nat.zero_le _) (by simpa using a.isLt)
    rw [this]

theorem noZero_reads (n : Nat) : n ≤ 65535 →
    ∃ ws, ws.length = n + 1 ∧ State.ReadsCells ws (0xFE02#16 - BitVec.ofNat 16 n) noZero (noZero.setKbd none) := by
  induction n with
  | zero =>
    exact fun _ => ⟨[0x0001#16], rfl, by decide, _, State.memRead_kbdr_full (s := noZero) rfl, rfl⟩
  | succ n ih =>
    intro hn
    obtain ⟨ws, hl, hr⟩ := ih (by omega)
    obtain ⟨w, hw, hm⟩ := noZero_read (a := 0xFE02#16 - BitVec.ofNat 16 (n + 1)) (by bv_omega)
    refine ⟨w :: ws, by simp [hl], hw, noZero, hm, ?_⟩
    have e : (0xFE02#16 - BitVec.ofNat 16 (n + 1)) + 1#16 = 0xFE02#16 - BitVec.ofNat 16 n := by bv_omega
    rw [e]
    exact hr

theorem witness_StringWithoutZeroCellGoesOn :
    ∃ ws, State.ReadsCells ws (noZero.reg 0#3) noZero (noZero.setKbd none) ∧ ws.length = scanTrip (noZero.reg 0#3) := by
  obtain ⟨ws, hl, hr⟩ := noZero_reads 65535 (Nat.le_refl _)
  exact ⟨ws, hr, hl⟩

/-! A string service in progress, at a cell other than KBDR: the string ends; it comes to an empty slot; no cell is zero. -/

theorem witness_StringServiceInProgressGoesOn_ends :
    hello.run = .running ∧ (hello.setHeld (some (.puts 0x3010))).held = some (.puts 0x3010) ∧
    2 < scanTrip 0x3010 ∧
    State.ReadsCells [0x6548#16, 0x0079#16] 0x3010 (hello.setHeld (some (.puts 0x3010))).environment
      (hello.setHeld (some (.puts 0x3010))) ∧
    (hello.setHeld (some (.puts 0x3010))).memRead (0x3010 + BitVec.ofNat 16 2) =
      some (0x0000#16, hello.setHeld (some (.puts 0x3010))) :=
  ⟨by decide, rfl, by decide, ⟨by decide, hello.setHeld (some (.puts 0x3010)), by decide, by decide,
    hello.setHeld (some (.puts 0x3010)), by decide, rfl⟩, by decide⟩

theorem witness_StringServiceInProgressGoesOn_waits :
    intoKeyboard.run = .running ∧ (intoKeyboard.setHeld (some (.putsp 0xFE01))).held = some (.putsp 0xFE01) ∧
    1 < scanTrip 0xFE01 ∧
    State.ReadsCells [0x0041#16] 0xFE01 (intoKeyboard.setHeld (some (.putsp 0xFE01))).environment
      (intoKeyboard.setHeld (some (.putsp 0xFE01))) ∧
    (intoKeyboard.setHeld (some (.putsp 0xFE01))).memRead (0xFE01 + BitVec.ofNat 16 1) = none :=
  ⟨by decide, rfl, by decide, ⟨by decide, intoKeyboard.setHeld (some (.putsp 0xFE01)), by decide, rfl⟩, by decide⟩

theorem witness_StringServiceInProgressGoesOn_goes_on :
    (noZero.setHeld (some (.puts 0xFE03))).run = .running ∧
    (noZero.setHeld (some (.puts 0xFE03))).held = some (.puts 0xFE03) ∧
    ∃ ws s₁, State.ReadsCells ws 0xFE03 (noZero.setHeld (some (.puts 0xFE03))).environment s₁ ∧
      ws.length = scanTrip 0xFE03 := by
  obtain ⟨ws, hl, hr⟩ := noZero_reads 65535 (Nat.le_refl _)
  exact ⟨rfl, rfl, ws, _, State.readsCells_setHeld _ hr, hl⟩

/-! Waiting. -/

/-- Every clause at an empty slot: PC + offset, the pointer, and base + offset at 0xFE02. -/
theorem witness_InputWithoutACharacterIsHeld :
    (cpu 0xFE01 [] []).kbd = none ∧ (cpu 0xFE01 [] []).pc + sext 1#9 = 0xFE02#16 ∧
    (cpu 0x3001 [(0x3004, 0xFE02)] []).kbd = none ∧
    (cpu 0x3001 [(0x3004, 0xFE02)] []).memRead ((cpu 0x3001 [(0x3004, 0xFE02)] []).pc + sext 3#9) =
      some (0xFE02#16, cpu 0x3001 [(0x3004, 0xFE02)] []) ∧
    (cpu 0x3001 [] [(6, 0xFE01)]).kbd = none ∧ (cpu 0x3001 [] [(6, 0xFE01)]).reg 6 + sext 1#6 = 0xFE02#16 := by decide

theorem witness_HeldInstructionWaitsUntilDelivery :
    (heldLoad.setKbd none).run = .running ∧ (heldLoad.setKbd none).held = some (.load 0 0xFE02) ∧
    (Held.load 0 0xFE02).Legal ∧ (heldLoad.setKbd none).environment.kbd = none ∧
    (State.reset.setHeld (some (.puts 0xFE02))).held = some (.puts 0xFE02) := by decide

/-- LDR, LDI's second read, STI, GETC, IN and PUTS are each held by an empty slot. -/
theorem witness_HoldThenDeliverIsTheSingleTransition :
    (∃ t, exec (.ldr 0 6 1) (cpu 0x3001 [] [(6, 0xFE01)]) = .next t ∧ t.held = some (.load 0 0xFE02)) ∧
    (∃ t, exec (.ldi 0 3) (cpu 0x3001 [(0x3004, 0xFE02)] []) = .next t ∧ t.held = some (.load 0 0xFE02)) ∧
    (∃ t, exec (.sti 0 1) (cpu 0xFE01 [] []) = .next t ∧ t.held = some (.storeIndirect 0 0xFE02)) ∧
    (∃ t, exec .trapGetc State.reset = .next t ∧ t.held = some .getc) ∧
    (∃ t, exec .trapIn State.reset = .next t ∧ t.held = some .inEcho) ∧
    (∃ t, exec .trapPuts intoKeyboard = .next t ∧ t.held = some (.puts 0xFE02)) :=
  ⟨⟨_, rfl, by decide⟩, ⟨_, rfl, by decide⟩, ⟨_, rfl, by decide⟩, ⟨_, rfl, by decide⟩, ⟨_, rfl, by decide⟩,
    ⟨_, rfl, by decide⟩⟩

theorem witness_HeldInstructionCompletesOnDelivery :
    heldLoad.run = .running ∧ heldLoad.held = some (.load 0 0xFE02) ∧ (Held.load 0 0xFE02).Legal ∧
    heldLoad.environment.kbd = some 0x41#8 ∧ (∀ p, Held.load 0 0xFE02 ≠ .puts p ∧ Held.load 0 0xFE02 ≠ .putsp p) :=
  ⟨by decide, by decide, by decide, by decide, fun _ => ⟨nofun, nofun⟩⟩

/-- LD, LDI and LDR, waiting and completing. -/
theorem witness_LoadsKeepEverythingElse :
    (∃ t, exec (.ld 0 1) (cpu 0xFE01 [] []) = .next t) ∧ (∃ t, exec (.ldi 0 3) (cpu 0x3001 [] []) = .next t) ∧
    (∃ t, exec (.ldr 0 6 0) (cpu 0x3001 [] []) = .next t) := ⟨⟨_, rfl⟩, ⟨_, rfl⟩, ⟨_, rfl⟩⟩

theorem witness_TrapServicesKeepEverythingElse :
    (∃ t, exec .trapGetc State.reset = .next t) ∧ (∃ t, exec .trapOut State.reset = .next t) ∧
    (∃ t, exec .trapPuts hello = .next t) ∧ (∃ t, exec .trapIn State.reset = .next t) ∧
    (∃ t, exec .trapPutsp hello = .next t) ∧ (∃ t, exec .trapHalt State.reset = .next t) :=
  ⟨⟨_, rfl⟩, ⟨_, rfl⟩, ⟨_, rfl⟩, ⟨_, rfl⟩, ⟨_, rfl⟩, ⟨_, rfl⟩⟩

end Sys2Proof.Tests
end

/-! ### Extensions of an instruction's field (`00_scope.md` rule R7) -/

namespace Sys2Proof.Machine

section Extensions

variable {n : Nat} (f : BitVec n)

theorem getLsbD_sext {i : Nat} (hi : i < 16) :
    (sext f).getLsbD i = if i < n then f.getLsbD i else f.getLsbD (n - 1) := by
  rw [sext, BitVec.getLsbD_signExtend, BitVec.msb_eq_getLsbD_last, decide_eq_true hi, Bool.true_and]

theorem getLsbD_zext (hn : n ≤ 16) (i : Nat) :
    (zext f).getLsbD i = if i < n then f.getLsbD i else false := by
  rw [zext, BitVec.getLsbD_setWidth]
  by_cases hi : i < n
  · simp [hi, hi.trans_le hn]
  · simp [hi, BitVec.getLsbD_of_ge f i (Nat.le_of_not_lt hi)]

/-- The top bit is 0 exactly for a value in the lower half of the field's range; above it, the ones that `sext` puts over the
field weigh `2 ^ 16 - 2 ^ n`. -/
theorem toNat_sext (hn : n ≤ 16) :
    (sext f).toNat = if f.toNat < 2 ^ (n - 1) then f.toNat else f.toNat + 65536 - 2 ^ n := by
  have hfield : 2 ^ n ≤ 2 ^ 16 := Nat.pow_le_pow_right (by decide) hn
  have hfits : f.toNat % 2 ^ 16 = f.toNat := Nat.mod_eq_of_lt (f.isLt.trans_le hfield)
  rw [sext, BitVec.toNat_signExtend, BitVec.toNat_setWidth, hfits, BitVec.msb_eq_decide]
  by_cases hlow : f.toNat < 2 ^ (n - 1)
  · rw [if_pos hlow, decide_eq_false (Nat.not_le_of_lt hlow), if_neg Bool.false_ne_true, Nat.add_zero]
  · rw [if_neg hlow, decide_eq_true (Nat.le_of_not_lt hlow), if_pos rfl]
    omega

end Extensions

/-- Settles O1: the bits of `sext`, its number, and the bits of `zext`, each by its lemma. -/
theorem signExtensionCopiesTheTopBit : Obligations.SignExtensionCopiesTheTopBit := by
  intro n f _ hn
  exact ⟨fun _ hi => getLsbD_sext f hi, toNat_sext f hn, getLsbD_zext f hn⟩

end Sys2Proof.Machine

/-! ### The condition code (`10_state.md` rules R22, R23) -/

namespace Sys2Proof.Machine

section ConditionCode

theorem signBit_eq (v : Word) : v[15] = decide (v.toInt < 0) := by
  rw [← BitVec.msb_eq_toInt, BitVec.msb_eq_getLsbD_last]
  rfl

theorem condOf_of_neg {v : Word} (h : v.toInt < 0) : condOf v = 0b100#3 := by
  have hzero : v ≠ 0x0000#16 := by rintro rfl; exact absurd h (by decide)
  rw [condOf, if_neg hzero, signBit_eq, decide_eq_true h, if_pos rfl]

theorem condOf_of_zero {v : Word} (h : v.toInt = 0) : condOf v = 0b010#3 := by
  rw [condOf, if_pos (BitVec.eq_of_toInt_eq h)]

theorem condOf_of_pos {v : Word} (h : 0 < v.toInt) : condOf v = 0b001#3 := by
  have hzero : v ≠ 0x0000#16 := by rintro rfl; exact absurd h (by decide)
  rw [condOf, if_neg hzero, signBit_eq, decide_eq_false (Int.not_lt.2 h.le), if_neg Bool.false_ne_true]

/-- Whatever the value, its condition code has exactly one bit set. -/
theorem condOf_oneHot (v : Word) : condOf v = 0b100#3 ∨ condOf v = 0b010#3 ∨ condOf v = 0b001#3 := by
  rcases lt_trichotomy v.toInt 0 with h | h | h
  · exact .inl (condOf_of_neg h)
  · exact .inr (.inl (condOf_of_zero h))
  · exact .inr (.inr (condOf_of_pos h))

end ConditionCode

/-- Settles O2: the three signs of the value, and the frame of an update of COND alone. -/
theorem setccFollowsTheSignOfTheValue : Obligations.SetccFollowsTheSignOfTheValue := by
  intro s v
  exact ⟨condOf_of_neg, condOf_of_zero, condOf_of_pos, fun _ => rfl, rfl, fun _ => rfl, rfl, rfl, rfl, rfl, rfl⟩

/-! ### The invariants that every elementary update keeps -/

section Invariants

theorem kept_inv : Kept State.Inv where
  setReg _ _ h := ⟨h.memory, h.cond, h.held⟩
  setPc _ h := ⟨h.memory, h.cond, h.held⟩
  setFlags v h := ⟨h.memory, .inr (condOf_oneHot v), h.held⟩
  setRun _ h := ⟨h.memory, h.cond, h.held⟩
  setCell a v _ h := ⟨State.setCell_wf h.memory a v, h.cond, h.held⟩
  emptySlot h := ⟨h.memory, h.cond, h.held⟩
  emit _ h := ⟨h.memory, h.cond, h.held⟩
  hold hl h := ⟨h.memory, h.cond, hl⟩
  release h := ⟨h.memory, h.cond, trivial⟩

theorem State.Inv.environment {s : State} (h : s.Inv) : s.environment.Inv := by
  obtain ⟨hmem, hcond, hheld⟩ := h
  obtain ⟨-, -, econd, -, emem, -, eheld⟩ := State.environment_same s
  exact ⟨emem ▸ hmem, by rwa [State.CondLegal, State.CondOneHot, econd], by rwa [State.HeldLegal, eheld]⟩

theorem kept_condOneHot : Kept State.CondOneHot where
  setReg _ _ h := h
  setPc _ h := h
  setFlags v _ := condOf_oneHot v
  setRun _ h := h
  setCell _ _ _ h := h
  emptySlot h := h
  emit _ h := h
  hold _ h := h
  release h := h

/-- OUT has only been appended to since `s`. -/
theorem kept_outputExtends (s : State) : Kept fun t => s.out <+: t.out where
  setReg _ _ h := h
  setPc _ h := h
  setFlags _ h := h
  setRun _ h := h
  setCell _ _ _ h := h
  emptySlot h := h
  emit l h := h.trans (List.prefix_append _ l)
  hold _ h := h
  release h := h

/-- Of the input of `s` nothing has gone in `t` but, at most, the character in the slot. -/
def State.SlotKeptOrTaken (s t : State) : Prop :=
  t.arrivals = s.arrivals ∧ (t.kbd = s.kbd ∨ t.kbd = none)

theorem kept_slotKeptOrTaken (s : State) : Kept s.SlotKeptOrTaken where
  setReg _ _ h := h
  setPc _ h := h
  setFlags _ h := h
  setRun _ h := h
  setCell _ _ _ h := h
  emptySlot h := ⟨h.1, .inr rfl⟩
  emit _ h := h
  hold _ h := h
  release h := h

theorem State.SlotKeptOrTaken.pendingInput {s t : State} (h : s.SlotKeptOrTaken t) :
    ∃ l : List Byte, l.length ≤ 1 ∧ s.pendingInput = l ++ t.pendingInput := by
  obtain ⟨harrivals, hkept | htaken⟩ := h
  · exact ⟨[], Nat.zero_le 1, by simp [State.pendingInput, harrivals, hkept]⟩
  · exact ⟨s.kbd.toList, Option.length_toList_le, by simp [State.pendingInput, harrivals, htaken]⟩

/-- A property the core's updates keep holds after a step of a running machine if it holds where the environment's move has
led. -/
theorem Kept.step_of_environment {P : State → Prop} (hP : Kept P) {s t : State} (hrun : s.run = .running)
    (h : Machine.step s = .next t) (he : P s.environment) : P t := by
  rcases step_cases h with ⟨hstop, -⟩ | ⟨-, k, -, rfl⟩ | ⟨-, -, -, rfl⟩ | ⟨-, -, ir, s₁, hread, hexec⟩
  · exact absurd hrun hstop
  · exact hP.resume k he
  · exact he
  · exact hP.exec hexec (hP.setPc _ (hP.memRead hread he))

theorem step_stopped {s : State} (h : s.run ≠ .running) : step s = .next s := by
  unfold step
  split
  · next hrun => exact absurd hrun h
  · rfl
  · rfl

/-- The environment's move takes a character from its plan only to put it into the empty slot. -/
theorem State.environment_pendingInput (s : State) : s.environment.pendingInput = s.pendingInput := by
  rcases State.environment_cases s with h | ⟨rest, hplan, h⟩ | ⟨c, rest, hslot, hplan, h⟩
  · rw [h]
  · simp [h, State.pendingInput, hplan]
  · simp [h, State.pendingInput, hplan, hslot]

end Invariants

/-- Settles O15: the three parts of the invariant survive every elementary update, and the environment's move. -/
theorem stepKeepsTheInvariant : Obligations.StepKeepsTheInvariant := by
  intro s t hs h
  exact kept_inv.step (fun _ => State.Inv.environment) h hs

/-- Settles O16: COND is only ever written with the condition code of a value, which is one-hot. -/
theorem condStaysOneHotOnceSet : Obligations.CondStaysOneHotOnceSet := by
  intro s t hs h
  refine kept_condOneHot.step (fun e he => ?_) h hs
  obtain ⟨-, -, hcond, -, -, -, -⟩ := State.environment_same e
  rwa [State.CondOneHot, hcond]

/-- Settles O17: OUT is only ever written by `emit`, which appends. -/
theorem outputIsOnlyAppendedTo : Obligations.OutputIsOnlyAppendedTo := by
  intro s t h
  refine (kept_outputExtends s).step (fun e he => ?_) h (List.prefix_refl _)
  obtain ⟨-, -, -, -, -, hout, -⟩ := State.environment_same e
  rwa [hout]

/-- Settles O18: the environment's move keeps the pending input, and after it the core can only empty the slot. -/
theorem inputIsConsumedInOrderOneCharacterAStep : Obligations.InputIsConsumedInOrderOneCharacterAStep := by
  intro s t h
  by_cases hrun : s.run = .running
  · rw [← State.environment_pendingInput s]
    exact ((kept_slotKeptOrTaken s.environment).step_of_environment hrun h ⟨rfl, .inl rfl⟩).pendingInput
  · rw [step_stopped hrun] at h
    cases h
    exact ⟨[], Nat.zero_le 1, rfl⟩

/-! ### The environment's move and reset -/

section EnvironmentMove

variable {s : State} {c d : Byte} {rest : List (Option Byte)}

theorem State.environment_of_nil (h : s.arrivals = []) : s.environment = s := by
  simp [State.environment, h]

theorem State.environment_of_none (h : s.arrivals = none :: rest) : s.environment = s.setArrivals rest := by
  simp [State.environment, h]

theorem State.environment_of_some_of_empty (hslot : s.kbd = none) (h : s.arrivals = some c :: rest) :
    s.environment = (s.setArrivals rest).setKbd (some c) := by
  simp [State.environment, h, hslot, State.deliver]

theorem State.environment_of_some_of_full (hslot : s.kbd = some d) (h : s.arrivals = some c :: rest) : s.environment = s := by
  simp [State.environment, h, hslot]

theorem State.environment_keeps_slot (hslot : s.kbd = some c) : s.environment.kbd = some c := by
  rcases State.environment_cases s with h | ⟨rest, -, h⟩ | ⟨_, _, hempty, -, -⟩
  · rw [h, hslot]
  · rw [h, State.setArrivals_kbd, hslot]
  · rw [hslot] at hempty; cases hempty

end EnvironmentMove

/-- Settles O14: the forms of the plan one by one, then what every one of them keeps. -/
theorem environmentFillsOnlyAnEmptySlot : Obligations.EnvironmentFillsOnlyAnEmptySlot := by
  intro s
  refine ⟨fun c h => ?_, fun c d h => State.deliver_full h c, fun c rest hslot h => ?_,
    fun c d rest => State.environment_of_some_of_full, fun rest h => ?_, State.environment_of_nil,
    fun c => State.environment_keeps_slot, State.environment_pendingInput s, State.environment_same s⟩
  · rw [State.deliver_empty h]; exact ⟨rfl, rfl⟩
  · rw [State.environment_of_some_of_empty hslot h]; exact ⟨rfl, rfl⟩
  · rw [State.environment_of_none h]; exact ⟨rfl, rfl⟩

@[simp] theorem State.resetWith_reg (m : Memory) (l : List (Option Byte)) (r : RegId) :
    (State.resetWith m l).reg r = 0x0000#16 := by
  simp [State.reg, State.resetWith]

/-- Settles O7: field by field. -/
theorem resetLeavesTheStatedValues : Obligations.ResetLeavesTheStatedValues := by
  intro m l
  exact ⟨State.resetWith_reg m l, rfl, rfl, rfl, fun _ => rfl, rfl, rfl, rfl⟩

/-- Settles O8: `init_mem` is canonical by assumption, COND is all zero and nothing is in progress. -/
theorem resetMeetsTheInvariant : Obligations.ResetMeetsTheInvariant := by
  intro m l hm
  exact ⟨hm, .inl rfl, trivial⟩

end Sys2Proof.Machine

/-! ### What an operation may change

A footprint names what an operation may change of COND, the general registers, memory and RUN. Each operation has its own,
`Instr` and `Held` give that of an instruction, and a step has one of these or changes none of the four. -/

namespace Sys2Proof.Machine

/-- The exception an instruction raises (`46_illegal.md` rules R170, R171, `45_trap.md` rule R157). -/
def illegalCause : Instr → Option Cause
  | .rti _ => some .rti
  | .reserved _ => some .reserved
  | .trapUndefined _ _ => some .badTrapVector
  | _ => none

/-- The instructions that make RUN leave Running (`10_state.md` rule R25). -/
def endsRun : Instr → Bool
  | .trapHalt => true
  | i => (illegalCause i).isSome

/-- What an operation may change: COND, a register, a cell and its value, RUN. -/
structure Footprint where
  flags : Bool := false
  dest : Option RegId := none
  store : Option (Word × Word) := none
  ends : Bool := false

/-- The footprint of an instruction executed in the state `s`. -/
def instrFootprint (i : Instr) (s : State) : Footprint where
  flags := i.setsCond
  dest := i.destination
  store := i.stored s
  ends := endsRun i

/-- The footprint of going on with an instruction in progress in the state `s`. -/
def heldFootprint (h : Held) (s : State) : Footprint where
  flags := h.setsCond
  dest := h.destination
  store := h.stored s

/-- From `s` to `t` no more has changed, of the four, than the footprint names; a store to a keyboard register is lost. -/
structure Within (f : Footprint) (s t : State) : Prop where
  cond : f.flags = false → t.cond = s.cond
  reg : ∀ q, f.dest ≠ some q → t.reg q = s.reg q
  mem : t.mem = s.mem ∨ ∃ a v, f.store = some (a, v) ∧ Ordinary a ∧ t.mem = s.mem.write a.toNat v
  run : f.ends = false → t.run = s.run

namespace Within

variable {f : Footprint} {s s' t : State}

theorem of_same (hregs : t.regs = s.regs) (hcond : t.cond = s.cond) (hmem : t.mem = s.mem) (hrun : t.run = s.run) :
    Within f s t :=
  ⟨fun _ => hcond, fun q _ => by rw [State.reg, State.reg, hregs], .inl hmem, fun _ => hrun⟩

/-- A footprint speaks of four fields of the state before, so another state with these will do. -/
theorem of_before (h : Within f s t) (hregs : s.regs = s'.regs) (hcond : s.cond = s'.cond) (hmem : s.mem = s'.mem)
    (hrun : s.run = s'.run) : Within f s' t where
  cond hf := (h.cond hf).trans hcond
  reg q hq := (h.reg q hq).trans (by rw [State.reg, State.reg, hregs])
  mem := hmem ▸ h.mem
  run hf := (h.run hf).trans hrun

theorem of_memRead {a v : Word} (hread : s.memRead a = some (v, s')) (h : Within f s' t) : Within f s t := by
  obtain ⟨hregs, -, hcond, hrun, hmem, -, -, -, -⟩ := State.memRead_frame hread
  exact h.of_before hregs hcond hmem hrun

theorem of_environment (h : Within f s.environment t) : Within f s t := by
  obtain ⟨hregs, -, hcond, hrun, hmem, -, -⟩ := State.environment_same s
  exact h.of_before hregs hcond hmem hrun

theorem flags_of_cond_ne (h : Within f s t) (hne : t.cond ≠ s.cond) : f.flags = true := by
  by_contra hf
  exact hne (h.cond (Bool.eq_false_of_not_eq_true hf))

theorem dest_of_reg_ne (h : Within f s t) {q : RegId} (hne : t.reg q ≠ s.reg q) : f.dest = some q := by
  by_contra hf
  exact hne (h.reg q hf)

theorem ends_of_run_ne (h : Within f s t) (hne : t.run ≠ s.run) : f.ends = true := by
  by_contra hf
  exact hne (h.run (Bool.eq_false_of_not_eq_true hf))

theorem store_of_cell_ne (h : Within f s t) (hwf : s.mem.wf) {a : Word} (hne : t.cell a ≠ s.cell a) :
    Ordinary a ∧ f.store = some (a, t.cell a) := by
  rcases h.mem with hmem | ⟨b, v, hstore, hb, hmem⟩
  · exact absurd (by rw [State.cell, State.cell, hmem]) hne
  · have hcell : ∀ c, t.cell c = (s.setCell b v).cell c := fun c => by rw [State.cell, hmem]; rfl
    have hab : a = b := by
      by_contra hab
      exact hne (by rw [hcell, State.setCell_cell_ne s v hab])
    subst hab
    exact ⟨hb, by rw [hstore, hcell, State.setCell_cell_self hwf]⟩

end Within

section OperationFootprints

variable (s : State)

theorem writeResult_within (dr : RegId) (v : Word) :
    Within { flags := true, dest := some dr } s (s.writeResult dr v) where
  cond hf := by cases hf
  reg q hq := by simp [Ne.symm (Option.some_inj.not.1 hq)]
  mem := .inl rfl
  run _ := rfl

theorem setReg_within (r : RegId) (v : Word) : Within { dest := some r } s (s.setReg r v) where
  cond _ := rfl
  reg q hq := by simp [Ne.symm (Option.some_inj.not.1 hq)]
  mem := .inl rfl
  run _ := rfl

theorem memWrite_within (a v : Word) : Within { store := some (a, v) } s (s.memWrite a v) := by
  rcases State.memWrite_cases s a v with ⟨ha, h⟩ | ⟨-, h⟩ <;> rw [h]
  · exact ⟨fun _ => rfl, fun _ _ => rfl, .inr ⟨a, v, rfl, ha, rfl⟩, fun _ => rfl⟩
  · exact .of_same rfl rfl rfl rfl

theorem load_within (dr : RegId) (ea : Word) : Within { flags := true, dest := some dr } s (s.load dr ea) := by
  cases hread : s.memRead ea with
  | none => rw [State.load_wait hread]; exact .of_same rfl rfl rfl rfl
  | some r => rw [State.load_read hread]; exact .of_memRead hread (writeResult_within r.2 dr r.1)

theorem loadIndirect_within (dr : RegId) (pa : Word) :
    Within { flags := true, dest := some dr } s (s.loadIndirect dr pa) := by
  cases hread : s.memRead pa with
  | none => rw [State.loadIndirect_wait hread]; exact .of_same rfl rfl rfl rfl
  | some r => rw [State.loadIndirect_read hread]; exact .of_memRead hread (load_within r.2 dr r.1)

theorem storeIndirect_within (sr : RegId) (pa : Word) :
    Within { store := (s.memRead pa).map fun r => (r.1, s.reg sr) } s (s.storeIndirect sr pa) := by
  cases hread : s.memRead pa with
  | none => rw [State.storeIndirect_wait hread]; exact .of_same rfl rfl rfl rfl
  | some r => rw [State.storeIndirect_read hread]; exact .of_memRead hread (memWrite_within r.2 r.1 (s.reg sr))

theorem getc_within : Within { dest := some trapReg } s s.getc := by
  cases hslot : s.kbd with
  | none => rw [State.getc_empty hslot]; exact .of_same rfl rfl rfl rfl
  | some c => rw [State.getc_full hslot]; exact (setReg_within _ trapReg (zext c)).of_before rfl rfl rfl rfl

theorem inEcho_within : Within { dest := some trapReg } s s.inEcho := by
  cases hslot : s.kbd with
  | none => rw [State.inEcho_empty hslot]; exact .of_same rfl rfl rfl rfl
  | some c => rw [State.inEcho_full hslot]; exact (setReg_within _ trapReg (zext c)).of_before rfl rfl rfl rfl

theorem scan_within (chars : Word → List Byte) (again : Word → Held) (n : Nat) (p : Word) :
    Within {} s (State.scan chars again n p s) := by
  obtain ⟨hregs, -, hcond, hrun, hmem, -, -⟩ := State.scan_frame chars again n p s
  exact .of_same hregs hcond hmem hrun

end OperationFootprints

/-- Every instruction stays within its footprint. -/
theorem exec_within {i : Instr} {s t : State} (h : exec i s = .next t) : Within (instrFootprint i s) s t := by
  cases i with
  | br nzp off =>
    cases h
    split <;> exact .of_same rfl rfl rfl rfl
  | addReg | addImm | andReg | andImm | not | lea => cases h; exact writeResult_within s _ _
  | ld | ldr => cases h; exact load_within s _ _
  | ldi dr off => cases h; exact loadIndirect_within s _ _
  | st | str => cases h; exact memWrite_within s _ _
  | sti sr off => cases h; exact storeIndirect_within s _ _
  | jsr | jsrr =>
    cases h
    have hlink := setReg_within s linkReg s.pc
    exact ⟨hlink.cond, hlink.reg, hlink.mem, hlink.run⟩
  | jmp | trapOut => cases h; exact .of_same rfl rfl rfl rfl
  | trapGetc => cases h; exact getc_within s
  | trapIn => cases h; exact (inEcho_within (s.emit inPrompt)).of_before rfl rfl rfl rfl
  | trapPuts | trapPutsp => cases h; exact scan_within s _ _ _ _
  | rti | reserved | trapHalt | trapUndefined =>
    cases h
    exact ⟨fun _ => rfl, fun _ _ => rfl, .inl rfl, nofun⟩

/-- Going on with an instruction in progress stays within its footprint. -/
theorem resume_within (h : Held) (s : State) : Within (heldFootprint h s) s (s.resume h) := by
  have hfree {f : Footprint} {t : State} (hw : Within f (s.setHeld none) t) : Within f s t :=
    hw.of_before rfl rfl rfl rfl
  cases h with
  | load dr ea => exact hfree (load_within _ dr ea)
  | loadIndirect dr pa => exact hfree (loadIndirect_within _ dr pa)
  | storeIndirect sr pa =>
    have hstore := storeIndirect_within (s.setHeld none) sr pa
    rw [State.memRead_setHeld, Option.map_map] at hstore
    exact hfree hstore
  | getc => exact hfree (getc_within _)
  | inEcho => exact hfree (inEcho_within _)
  | puts p => exact hfree (scan_within _ _ _ _ p)
  | putsp p => exact hfree (scan_within _ _ _ _ p)

/-- A step changes none of the four, or stays within the footprint of the instruction it goes on with, or of the one it
fetches. -/
theorem step_within {s t : State} (h : step s = .next t) :
    ∃ f : Footprint, Within f s t ∧
      (f = {} ∨
       (∃ k, s.held = some k ∧ f = heldFootprint k s.environment) ∨
       (s.held = none ∧ ∃ (ir : Word) (s₁ : State), s.environment.memRead s.pc = some (ir, s₁) ∧
         f = instrFootprint (decode ir) (s₁.setPc (s.pc + 1#16)))) := by
  rcases step_cases h with ⟨-, rfl⟩ | ⟨-, k, hk, rfl⟩ | ⟨-, -, -, rfl⟩ | ⟨-, hk, ir, s₁, hread, hexec⟩
  · exact ⟨{}, .of_same rfl rfl rfl rfl, .inl rfl⟩
  · exact ⟨_, (resume_within k s.environment).of_environment, .inr (.inl ⟨k, hk, rfl⟩)⟩
  · exact ⟨{}, .of_environment (.of_same rfl rfl rfl rfl), .inl rfl⟩
  · have hfetched : Within _ s₁ t := (exec_within hexec).of_before rfl rfl rfl rfl
    exact ⟨_, (hfetched.of_memRead hread).of_environment, .inr (.inr ⟨hk, ir, s₁, hread, rfl⟩)⟩

/-- Settles O20: a footprint that lets COND change is that of one of the seven instructions. -/
theorem onlyTheSevenInstructionsChangeCond : Obligations.OnlyTheSevenInstructionsChangeCond := by
  intro s t h hne
  obtain ⟨f, hf, horigin⟩ := step_within h
  have hflags := hf.flags_of_cond_ne hne
  rcases horigin with rfl | ⟨k, hk, rfl⟩ | ⟨hk, ir, s₁, hread, rfl⟩
  · cases hflags
  · exact .inl ⟨k, hk, hflags⟩
  · exact .inr ⟨hk, ir, s₁, hread, hflags⟩

/-- Settles O21: a footprint lets one register change at most, the destination. -/
theorem registersChangeOnlyAsDestinations : Obligations.RegistersChangeOnlyAsDestinations := by
  intro s t r h hne
  obtain ⟨f, hf, horigin⟩ := step_within h
  have hdest := hf.dest_of_reg_ne hne
  rcases horigin with rfl | ⟨k, hk, rfl⟩ | ⟨hk, ir, s₁, hread, rfl⟩
  · cases hdest
  · exact .inl ⟨k, hk, hdest⟩
  · exact .inr ⟨hk, ir, s₁, hread, hdest⟩

/-- Settles O22: a footprint lets one ordinary cell change at most, to the value stored. -/
theorem memoryChangesOnlyByStores : Obligations.MemoryChangesOnlyByStores := by
  intro s t a hwf h hne
  obtain ⟨f, hf, horigin⟩ := step_within h
  obtain ⟨ha, hstore⟩ := hf.store_of_cell_ne hwf hne
  refine ⟨ha, ?_⟩
  rcases horigin with rfl | ⟨k, hk, rfl⟩ | ⟨hk, ir, s₁, hread, rfl⟩
  · cases hstore
  · exact .inl ⟨k, hk, hstore⟩
  · exact .inr ⟨hk, ir, s₁, hread, hstore⟩

end Sys2Proof.Machine

/-! ### The words that end a run -/

namespace Sys2Proof.Machine

open Sys2Proof.Laws

section IllegalWords

/-- The opcode map is one to one. -/
theorem opcodeOf_inj {a b : BitVec 4} (h : opcodeOf a = opcodeOf b) : a = b := by
  revert a b
  decide

theorem number_decodeTrap (w : Word) : OpcodeField.number (decodeTrap w) = 0xF#4 := by
  simp only [decodeTrap]
  split_ifs <;> rfl

/-- Bits 15 to 12 of a word are the opcode of its instruction (`30_encoding.md` rule R75): where `decode` looks at further bits,
every outcome has the same opcode. -/
theorem number_decode (w : Word) : OpcodeField.number (decode w) = w.extractLsb' 12 4 := by
  apply opcodeOf_inj
  unfold decode
  split <;> rename_i hop <;> rw [hop]
  case h_2 | h_5 | h_6 => split <;> rw [OpcodeField.number] <;> rfl
  case h_16 => rw [number_decodeTrap]; rfl
  all_goals rw [OpcodeField.number]; rfl

/-- A word is its opcode and the twelve bits below it. -/
theorem opcode_append_rest (w : Word) : w.extractLsb' 12 4 ++ w.extractLsb' 0 12 = w :=
  (BitVec.extractLsb'_append_extractLsb'_eq_extractLsb' rfl).trans BitVec.extractLsb'_eq_self

/-- A word is its opcode, the four bits below it and its low byte. -/
theorem opcode_append_bits_append_byte (w : Word) :
    w.extractLsb' 12 4 ++ w.extractLsb' 8 4 ++ w.extractLsb' 0 8 = w := by
  have hhigh : w.extractLsb' 12 4 ++ w.extractLsb' 8 4 = w.extractLsb' 8 8 :=
    BitVec.extractLsb'_append_extractLsb'_eq_extractLsb' rfl
  rw [hhigh]
  exact (BitVec.extractLsb'_append_extractLsb'_eq_extractLsb' rfl).trans BitVec.extractLsb'_eq_self

variable {w : Word}

theorem decode_of_rti (h : w.extractLsb' 12 4 = 0x8#4) : decode w = .rti (w.extractLsb' 0 12) := by
  unfold decode
  rw [h]
  rfl

theorem decode_of_reserved (h : w.extractLsb' 12 4 = 0xD#4) : decode w = .reserved (w.extractLsb' 0 12) := by
  unfold decode
  rw [h]
  rfl

theorem decode_of_trap (h : w.extractLsb' 12 4 = 0xF#4) : decode w = decodeTrap w := by
  unfold decode
  rw [h]
  rfl

theorem decodeTrap_eq_trapHalt (h : decodeTrap w = .trapHalt) : w.extractLsb' 0 8 = 0x25#8 := by
  simp only [decodeTrap] at h
  split_ifs at h with h0 h1 h2 h3 h4 h5
  exact h5

theorem decodeTrap_eq_trapUndefined {ignored : BitVec 4} {vect : BitVec 8} (h : decodeTrap w = .trapUndefined ignored vect) :
    ignored = w.extractLsb' 8 4 ∧ vect = w.extractLsb' 0 8 ∧
    ¬ (0x20 ≤ (w.extractLsb' 0 8).toNat ∧ (w.extractLsb' 0 8).toNat ≤ 0x25) := by
  simp only [decodeTrap] at h
  split_ifs at h with h0 h1 h2 h3 h4 h5
  cases h
  exact ⟨rfl, rfl, by bv_omega⟩

theorem decode_eq_trapHalt (h : decode w = .trapHalt) : w.extractLsb' 12 4 = 0xF#4 ∧ w.extractLsb' 0 8 = 0x25#8 := by
  have hop : w.extractLsb' 12 4 = 0xF#4 := by rw [← number_decode, h]; rfl
  exact ⟨hop, decodeTrap_eq_trapHalt ((decode_of_trap hop).symm.trans h)⟩

/-- The word of an instruction that raises IllegalOpcode: it is recorded whole, and it is of one of the three classes of
`30_encoding.md` rule R78. -/
theorem decode_illegal {cause : Cause} (h : illegalCause (decode w) = some cause) :
    encode (decode w) = w ∧
    ((cause = .rti ∧ w.extractLsb' 12 4 = 0x8#4) ∨
     (cause = .reserved ∧ w.extractLsb' 12 4 = 0xD#4) ∨
     (cause = .badTrapVector ∧ w.extractLsb' 12 4 = 0xF#4 ∧
       ¬ (0x20 ≤ (w.extractLsb' 0 8).toNat ∧ (w.extractLsb' 0 8).toNat ≤ 0x25))) := by
  have hnumber := number_decode w
  cases hi : decode w <;> rw [hi] at h hnumber <;> cases h
  case rti ignored =>
    have hop : w.extractLsb' 12 4 = 0x8#4 := hnumber.symm
    obtain rfl : w.extractLsb' 0 12 = ignored := Instr.rti.inj ((decode_of_rti hop).symm.trans hi)
    exact ⟨by rw [encode, ← hop]; exact opcode_append_rest w, .inl ⟨rfl, hop⟩⟩
  case reserved ignored =>
    have hop : w.extractLsb' 12 4 = 0xD#4 := hnumber.symm
    obtain rfl : w.extractLsb' 0 12 = ignored := Instr.reserved.inj ((decode_of_reserved hop).symm.trans hi)
    exact ⟨by rw [encode, ← hop]; exact opcode_append_rest w, .inr (.inl ⟨rfl, hop⟩)⟩
  case trapUndefined ignored vect =>
    have hop : w.extractLsb' 12 4 = 0xF#4 := hnumber.symm
    obtain ⟨rfl, rfl, hvect⟩ := decodeTrap_eq_trapUndefined ((decode_of_trap hop).symm.trans hi)
    exact ⟨by rw [encode, ← hop]; exact opcode_append_bits_append_byte w, .inr (.inr ⟨rfl, hop, hvect⟩)⟩

/-- An instruction that changes RUN is HALT or raises IllegalOpcode, and what it does then in full. -/
theorem exec_run_changed {i : Instr} {s t : State} (h : exec i s = .next t) (hne : t.run ≠ s.run) :
    (i = .trapHalt ∧ t = (s.emit haltMessage).setRun .halted) ∨
    ∃ cause, illegalCause i = some cause ∧ t = s.raiseIllegal cause (encode i) := by
  have hends : endsRun i = true := (exec_within h).ends_of_run_ne hne
  cases i with
  | trapHalt => cases h; exact .inl ⟨rfl, rfl⟩
  | rti | reserved | trapUndefined => cases h; exact .inr ⟨_, rfl, rfl⟩
  | _ => cases hends

end IllegalWords

/-- Settles O19: neither the environment, nor an instruction in progress, nor a fetch that waits changes RUN, so the step executes
a word, and that word is a HALT or an illegal one. -/
theorem runEndsOnlyByHaltOrIllegalOpcode : Obligations.RunEndsOnlyByHaltOrIllegalOpcode := by
  intro s t hrun h hne
  obtain ⟨-, -, -, erun, -, eout, -⟩ := State.environment_same s
  rcases step_cases h with ⟨hstop, -⟩ | ⟨-, k, -, rfl⟩ | ⟨-, -, -, rfl⟩ | ⟨-, hk, ir, s₁, hread, hexec⟩
  · exact absurd hrun hstop
  · exact absurd ((State.resume_frame _ k).2.trans (erun.trans hrun)) hne
  · exact absurd (erun.trans hrun) hne
  · obtain ⟨-, -, -, hrun₁, -, hout₁, -, -, -⟩ := State.memRead_frame hread
    have hout : s₁.out = s.out := hout₁.trans eout
    have hchanged : t.run ≠ (s₁.setPc (s.pc + 1#16)).run := fun heq => hne (heq.trans (hrun₁.trans (erun.trans hrun)))
    rcases exec_run_changed hexec hchanged with ⟨hi, rfl⟩ | ⟨cause, hcause, rfl⟩
    · obtain ⟨hop, hvect⟩ := decode_eq_trapHalt hi
      exact ⟨hk, rfl, ir, s₁, hread, .inl ⟨hop, hvect, rfl, by simp [hout]⟩⟩
    · obtain ⟨hword, hclass⟩ := decode_illegal hcause
      exact ⟨hk, rfl, ir, s₁, hread, .inr ⟨hout, cause, by simp [hword], hclass⟩⟩

end Sys2Proof.Machine

/-! ### The cells behind the keyboard registers are hidden (`10_state.md` rule R26, decision D36) -/

namespace Sys2Proof.Machine

/-- Two canonical memories that agree at every ordinary address. -/
structure Memory.AgreeOrdinary (m m' : Memory) : Prop where
  wf : m.wf
  wf' : m'.wf
  read_eq : ∀ a : Word, Ordinary a → m'.read a.toNat = m.read a.toNat

/-- The second state is the first with another memory, which agrees with its own at every ordinary address. -/
def State.Indistinct (s t : State) : Prop := ∃ m, t = s.setMem m ∧ s.mem.AgreeOrdinary m

theorem State.indistinct_of_sameButHidden {s t : State} (hs : s.mem.wf) (ht : t.mem.wf) (h : s.SameButHidden t) :
    s.Indistinct t := by
  obtain ⟨hregs, hpc, hcond, hcell, hrun, hkbd, hout, hheld, harrivals⟩ := h
  refine ⟨t.mem, ?_, hs, ht, hcell⟩
  cases t
  simp_all [State.setMem]

theorem State.Indistinct.sameButHidden {s t : State} (h : s.Indistinct t) : s.SameButHidden t := by
  obtain ⟨m, rfl, hm⟩ := h
  exact ⟨rfl, rfl, rfl, hm.read_eq, rfl, rfl, rfl, rfl, rfl⟩

section MemoryOperations

variable {s : State} {m : Memory}

/-- A read does not see a hidden cell: it gives the same value in both memories, and it leaves memory alone. -/
theorem State.memRead_setMem (hm : s.mem.AgreeOrdinary m) (a : Word) :
    (s.setMem m).memRead a = (s.memRead a).map fun r => (r.1, r.2.setMem m) := by
  cases hread : s.memRead a with
  | none => exact (State.memRead_none (s := s.setMem m)).2 ((State.memRead_none (s := s)).1 hread)
  | some r =>
    rcases State.memRead_some hread with ⟨rfl, hv, hs⟩ | ⟨rfl, ⟨c, hc, hv⟩, hs⟩ | ⟨ha, hv, hs⟩
    · rw [State.memRead_kbsr, Option.map_some, hv, hs]; rfl
    · rw [State.memRead_kbdr_full (s := s.setMem m) hc, Option.map_some, hv, hs]; rfl
    · rw [State.memRead_ordinary _ ha, State.setMem_cell, hm.read_eq a ha, Option.map_some, hv, hs]; rfl

theorem Memory.AgreeOrdinary.write {m m' : Memory} (h : m.AgreeOrdinary m') (a v : Word) :
    (m.write a.toNat v).AgreeOrdinary (m'.write a.toNat v) where
  wf := Memory.write_wf h.wf a.isLt v
  wf' := Memory.write_wf h.wf' a.isLt v
  read_eq b hb := by
    by_cases hab : b = a
    · rw [hab, Memory.read_write_self h.wf, Memory.read_write_self h.wf']
    · have hne : b.toNat ≠ a.toNat := fun heq => hab (BitVec.eq_of_toNat_eq heq)
      rw [Memory.read_write_ne _ v hne, Memory.read_write_ne _ v hne, h.read_eq b hb]

theorem State.fetch_setMem (hm : s.mem.AgreeOrdinary m) :
    (s.setMem m).fetch = s.fetch.map fun r => (r.1, r.2.setMem m) := by
  rw [State.fetch, State.fetch, State.setMem_pc, State.memRead_setMem hm]
  cases s.memRead s.pc <;> rfl

theorem State.fetch_mem {ir : Word} {s' : State} (h : s.fetch = some (ir, s')) : s'.mem = s.mem := by
  obtain ⟨s₁, hread, rfl⟩ := State.fetch_some h
  obtain ⟨-, -, -, -, hmem, -, -, -, -⟩ := State.memRead_frame hread
  exact hmem

theorem State.environment_setMem (s : State) (m : Memory) : (s.setMem m).environment = s.environment.setMem m := by
  rcases hplan : s.arrivals with _ | ⟨_ | c, rest⟩
  · rw [State.environment_of_nil hplan, State.environment_of_nil (s := s.setMem m) hplan]
  · rw [State.environment_of_none hplan, State.environment_of_none (s := s.setMem m) hplan]
    rfl
  · cases hslot : s.kbd with
    | none =>
      rw [State.environment_of_some_of_empty hslot hplan, State.environment_of_some_of_empty (s := s.setMem m) hslot hplan]
      rfl
    | some d =>
      rw [State.environment_of_some_of_full hslot hplan, State.environment_of_some_of_full (s := s.setMem m) hslot hplan]

end MemoryOperations

namespace State.Indistinct

variable {s t : State}

/-- The two states after a read that gives a value. -/
theorem memRead {a v : Word} {s' : State} (h : s.Indistinct t) (hread : s.memRead a = some (v, s')) :
    ∃ t', t.memRead a = some (v, t') ∧ s'.Indistinct t' := by
  obtain ⟨m, rfl, hm⟩ := h
  obtain ⟨-, -, -, -, hmem, -, -, -, -⟩ := State.memRead_frame hread
  exact ⟨s'.setMem m, by rw [State.memRead_setMem hm, hread]; rfl, m, rfl, hmem ▸ hm⟩

theorem memRead_none {a : Word} (h : s.Indistinct t) (hread : s.memRead a = none) : t.memRead a = none := by
  obtain ⟨m, rfl, hm⟩ := h
  rw [State.memRead_setMem hm, hread]
  rfl

/-- An update that neither reads nor writes memory. -/
theorem update (h : s.Indistinct t) (f : State → State) (hf : ∀ m, f (s.setMem m) = (f s).setMem m)
    (hmem : (f s).mem = s.mem) : (f s).Indistinct (f t) := by
  obtain ⟨m, rfl, hm⟩ := h
  exact ⟨m, hf m, hmem ▸ hm⟩

theorem setHeld (h : s.Indistinct t) (k : Option Held) : (s.setHeld k).Indistinct (t.setHeld k) :=
  h.update (·.setHeld k) (fun _ => rfl) rfl

theorem emit (h : s.Indistinct t) (l : List Byte) : (s.emit l).Indistinct (t.emit l) :=
  h.update (·.emit l) (fun _ => rfl) rfl

theorem setReg (h : s.Indistinct t) (r : RegId) (v : Word) : (s.setReg r v).Indistinct (t.setReg r v) :=
  h.update (·.setReg r v) (fun _ => rfl) rfl

theorem setKbd (h : s.Indistinct t) (k : Option Byte) : (s.setKbd k).Indistinct (t.setKbd k) :=
  h.update (·.setKbd k) (fun _ => rfl) rfl

theorem writeResult (h : s.Indistinct t) (dr : RegId) (v : Word) :
    (s.writeResult dr v).Indistinct (t.writeResult dr v) :=
  h.update (·.writeResult dr v) (fun _ => rfl) rfl

theorem memWrite (h : s.Indistinct t) (a v : Word) : (s.memWrite a v).Indistinct (t.memWrite a v) := by
  obtain ⟨m, rfl, hm⟩ := h
  by_cases ha : Ordinary a
  · rw [State.memWrite_ordinary _ _ ha, State.memWrite_ordinary _ _ ha]
    exact ⟨m.write a.toNat v, rfl, hm.write a v⟩
  · rw [State.memWrite_mapped _ _ ha, State.memWrite_mapped _ _ ha]
    exact ⟨m, rfl, hm⟩

theorem reg_eq (h : s.Indistinct t) (r : RegId) : t.reg r = s.reg r := by
  obtain ⟨m, rfl, -⟩ := h
  rfl

theorem kbd_eq (h : s.Indistinct t) : t.kbd = s.kbd := by
  obtain ⟨m, rfl, -⟩ := h
  rfl

theorem load (h : s.Indistinct t) (dr : RegId) (ea : Word) : (s.load dr ea).Indistinct (t.load dr ea) := by
  cases hread : s.memRead ea with
  | none =>
    rw [State.load_wait hread, State.load_wait (h.memRead_none hread)]
    exact h.setHeld _
  | some r =>
    obtain ⟨t', hread', h'⟩ := h.memRead hread
    rw [State.load_read hread, State.load_read hread']
    exact h'.writeResult dr r.1

theorem loadIndirect (h : s.Indistinct t) (dr : RegId) (pa : Word) :
    (s.loadIndirect dr pa).Indistinct (t.loadIndirect dr pa) := by
  cases hread : s.memRead pa with
  | none =>
    rw [State.loadIndirect_wait hread, State.loadIndirect_wait (h.memRead_none hread)]
    exact h.setHeld _
  | some r =>
    obtain ⟨t', hread', h'⟩ := h.memRead hread
    rw [State.loadIndirect_read hread, State.loadIndirect_read hread']
    exact h'.load dr r.1

theorem storeIndirect (h : s.Indistinct t) (sr : RegId) (pa : Word) :
    (s.storeIndirect sr pa).Indistinct (t.storeIndirect sr pa) := by
  cases hread : s.memRead pa with
  | none =>
    rw [State.storeIndirect_wait hread, State.storeIndirect_wait (h.memRead_none hread)]
    exact h.setHeld _
  | some r =>
    obtain ⟨t', hread', h'⟩ := h.memRead hread
    rw [State.storeIndirect_read hread, State.storeIndirect_read hread', h.reg_eq]
    exact h'.memWrite r.1 _

theorem getc (h : s.Indistinct t) : s.getc.Indistinct t.getc := by
  cases hslot : s.kbd with
  | none =>
    rw [State.getc_empty hslot, State.getc_empty (h.kbd_eq.trans hslot)]
    exact h.setHeld _
  | some c =>
    rw [State.getc_full hslot, State.getc_full (h.kbd_eq.trans hslot)]
    exact (h.setKbd none).setReg _ _

theorem inEcho (h : s.Indistinct t) : s.inEcho.Indistinct t.inEcho := by
  cases hslot : s.kbd with
  | none =>
    rw [State.inEcho_empty hslot, State.inEcho_empty (h.kbd_eq.trans hslot)]
    exact h.setHeld _
  | some c =>
    rw [State.inEcho_full hslot, State.inEcho_full (h.kbd_eq.trans hslot)]
    exact ((h.setKbd none).emit [c]).setReg _ _

theorem scan (chars : Word → List Byte) (again : Word → Held) (n : Nat) (p : Word) (h : s.Indistinct t) :
    (State.scan chars again n p s).Indistinct (State.scan chars again n p t) := by
  induction n generalizing p s t with
  | zero => exact h.setHeld _
  | succ n ih =>
    cases hread : s.memRead p with
    | none =>
      simp only [State.scan, hread, h.memRead_none hread]
      exact h.setHeld _
    | some r =>
      obtain ⟨t', hread', h'⟩ := h.memRead hread
      simp only [State.scan, hread, hread']
      split
      · exact h'
      · exact ih _ (h'.emit _)

theorem resume (h : s.Indistinct t) (k : Held) : (s.resume k).Indistinct (t.resume k) := by
  have hfree := h.setHeld none
  cases k with
  | load dr ea => exact hfree.load dr ea
  | loadIndirect dr pa => exact hfree.loadIndirect dr pa
  | storeIndirect sr pa => exact hfree.storeIndirect sr pa
  | getc => exact hfree.getc
  | inEcho => exact hfree.inEcho
  | puts p => exact hfree.scan _ _ _ p
  | putsp p => exact hfree.scan _ _ _ p

end State.Indistinct

/-- The outcomes of a move from two indistinct states: what the first answers, the second answers but for hidden cells. -/
def OutcomesIndistinct (x y : Host.Outcome State Fault Refusal) : Prop :=
  ∀ s', x = .next s' → ∃ t', y = .next t' ∧ s'.Indistinct t'

theorem outcomesIndistinct_next {s t : State} (h : s.Indistinct t) : OutcomesIndistinct (.next s) (.next t) := by
  intro s' hs
  cases hs
  exact ⟨t, rfl, h⟩

section Moves

variable {s : State} {m : Memory}

/-- Every instruction reads and writes the same with either memory. -/
theorem exec_indistinct (i : Instr) (hm : s.mem.AgreeOrdinary m) :
    OutcomesIndistinct (exec i s) (exec i (s.setMem m)) := by
  have h : s.Indistinct (s.setMem m) := ⟨m, rfl, hm⟩
  cases i with
  | br nzp off =>
    have htaken : (s.setMem m).branchTaken nzp = s.branchTaken nzp := rfl
    refine outcomesIndistinct_next ?_
    rw [htaken]
    split <;> exact ⟨m, rfl, hm⟩
  | addReg | addImm | andReg | andImm | not | lea => exact outcomesIndistinct_next (h.writeResult _ _)
  | ld | ldr => exact outcomesIndistinct_next (h.load _ _)
  | ldi dr off => exact outcomesIndistinct_next (h.loadIndirect _ _)
  | st | str => exact outcomesIndistinct_next (h.memWrite _ _)
  | sti sr off => exact outcomesIndistinct_next (h.storeIndirect _ _)
  | jmp | jsr | jsrr | trapOut | trapHalt | rti | reserved | trapUndefined =>
    exact outcomesIndistinct_next ⟨m, rfl, hm⟩
  | trapGetc => exact outcomesIndistinct_next h.getc
  | trapIn => exact outcomesIndistinct_next (h.emit inPrompt).inEcho
  | trapPuts | trapPutsp => exact outcomesIndistinct_next (h.scan _ _ _ _)

theorem coreMove_indistinct (hm : s.mem.AgreeOrdinary m) :
    OutcomesIndistinct (coreMove s) (coreMove (s.setMem m)) := by
  have h : s.Indistinct (s.setMem m) := ⟨m, rfl, hm⟩
  unfold coreMove
  rw [State.setMem_held, State.fetch_setMem hm]
  cases s.held with
  | some k => exact outcomesIndistinct_next (h.resume k)
  | none =>
    cases hfetch : s.fetch with
    | none => exact outcomesIndistinct_next h
    | some r => exact exec_indistinct (decode r.1) (State.fetch_mem hfetch ▸ hm)

theorem step_indistinct {t : State} (h : s.Indistinct t) : OutcomesIndistinct (step s) (step t) := by
  obtain ⟨m, rfl, hm⟩ := h
  obtain ⟨-, -, -, -, hmem, -, -⟩ := State.environment_same s
  unfold step
  rw [State.setMem_run, State.environment_setMem]
  cases s.run with
  | running => exact coreMove_indistinct (hmem ▸ hm)
  | halted | faulted => exact outcomesIndistinct_next ⟨m, rfl, hm⟩

end Moves

/-- Settles O23: to differ at most in hidden cells is to be indistinct, which every step keeps. -/
theorem hiddenCellsAreNeverObserved : Obligations.HiddenCellsAreNeverObserved := by
  intro s t s' hs ht h hstep
  obtain ⟨t', hstep', h'⟩ := step_indistinct (State.indistinct_of_sameButHidden hs ht h) s' hstep
  exact ⟨t', hstep', h'.sameButHidden⟩

end Sys2Proof.Machine

/-! ### Reading and writing memory (`20_memory.md` rules R42 to R46) -/

namespace Sys2Proof.Machine

section MemoryPrimitives

variable {s : State}

theorem State.memRead_kbsr_empty (h : s.kbd = none) : s.memRead Config.kbsrAddr = some (0x0000#16, s) := by
  simp [State.memRead_kbsr, State.kbsr, h]

theorem State.memRead_kbsr_full {c : Byte} (h : s.kbd = some c) : s.memRead Config.kbsrAddr = some (0x8000#16, s) := by
  simp [State.memRead_kbsr, State.kbsr, h]

theorem toNat_zext {n : Nat} (hn : n ≤ 16) (f : BitVec n) : (zext f).toNat = f.toNat :=
  BitVec.toNat_setWidth_of_le hn

theorem State.memRead_setCell_self (h : s.mem.wf) {a : Word} (ha : Ordinary a) (v : Word) :
    (s.setCell a v).memRead a = some (v, s.setCell a v) := by
  rw [State.memRead_ordinary _ ha, State.setCell_cell_self h]

end MemoryPrimitives

/-- Settles O3: an ordinary address is not intercepted. -/
theorem ordinaryReadReturnsTheCell : Obligations.OrdinaryReadReturnsTheCell := by
  intro s a hkbsr hkbdr
  exact State.memRead_ordinary s ⟨hkbsr, hkbdr⟩

/-- Settles O4: the two registers with an empty slot, with a full one, and KBSR once the character is taken. -/
theorem keyboardRegistersReadTheSlot : Obligations.KeyboardRegistersReadTheSlot := by
  intro s c
  refine ⟨fun hempty => ⟨State.memRead_kbsr_empty hempty, State.memRead_kbdr_empty hempty⟩,
    fun hfull => ⟨State.memRead_kbsr_full hfull, s.setKbd none, zext c, State.memRead_kbdr_full hfull, ?_⟩⟩
  have htaken : (s.setKbd none).kbd = none := State.setKbd_kbd s none
  exact ⟨toNat_zext (by decide) c, htaken, State.memRead_kbsr_empty htaken, rfl, rfl, rfl, rfl, rfl, rfl, rfl, rfl⟩

/-- Settles O5: at an ordinary address a write is the plain store of the cell. -/
theorem ordinaryWriteThenReadGivesTheValue : Obligations.OrdinaryWriteThenReadGivesTheValue := by
  intro s a v hwf hkbsr hkbdr
  have ha : Ordinary a := ⟨hkbsr, hkbdr⟩
  rw [State.memWrite_ordinary s v ha]
  exact ⟨State.setCell_cell_self hwf a v, State.memRead_setCell_self hwf ha v, fun _ => State.setCell_cell_ne s v,
    State.setCell_reg s a v, rfl, rfl, rfl, rfl, rfl, rfl, rfl⟩

/-- Settles O6: neither keyboard register is an ordinary address. -/
theorem writesToKeyboardRegistersAreLost : Obligations.WritesToKeyboardRegistersAreLost := by
  intro s a v hmapped
  refine State.memWrite_mapped s v fun ⟨hkbsr, hkbdr⟩ => ?_
  rcases hmapped with rfl | rfl
  · exact hkbsr rfl
  · exact hkbdr rfl

/-! ### What a step answers (`40_cycle.md` rules R100 to R104) -/

section StepAnswers

variable {s s₁ : State} {ir : Word}

theorem step_running (hrun : s.run = .running) : step s = coreMove s.environment := by
  simp [step, hrun]

theorem coreMove_held {k : Held} (hheld : s.held = some k) : coreMove s = .next (s.resume k) := by
  simp [coreMove, hheld]

theorem coreMove_fetch_waits (hheld : s.held = none) (hread : s.memRead s.pc = none) : coreMove s = .next s := by
  have hfetch : s.fetch = none := State.fetch_none.2 (State.memRead_none.1 hread)
  simp [coreMove, hheld, hfetch]

theorem coreMove_fetch_reads (hheld : s.held = none) (hread : s.memRead s.pc = some (ir, s₁)) :
    coreMove s = exec (decode ir) (s₁.setPc (s.pc + 1#16)) := by
  obtain ⟨-, hpc, -, -, -, -, -, -, -⟩ := State.memRead_frame hread
  simp [coreMove, hheld, State.fetch, hread, hpc]

/-- Every arm of `exec` is a next state, whatever it does: there is no fault and no refusal among them. -/
theorem exec_answers_next (i : Instr) (s : State) : ∃ t, exec i s = .next t := by
  cases i <;> exact ⟨_, rfl⟩

theorem coreMove_answers_next (s : State) : ∃ t, coreMove s = .next t := by
  cases hheld : s.held with
  | some k => exact ⟨_, coreMove_held hheld⟩
  | none =>
    cases hread : s.memRead s.pc with
    | none => exact ⟨_, coreMove_fetch_waits hheld hread⟩
    | some r =>
      rw [coreMove_fetch_reads hheld hread]
      exact exec_answers_next _ _

/-- The environment has moved before the fetch, but an ordinary cell is the same before and after its move. -/
theorem step_fetches_ordinary (hrun : s.run = .running) (hheld : s.held = none) (hpc : Ordinary s.pc) :
    step s = exec (decode (s.cell s.pc)) (s.environment.setPc (s.pc + 1#16)) := by
  obtain ⟨-, epc, -, -, emem, -, eheld⟩ := State.environment_same s
  have hread : s.environment.memRead s.environment.pc = some (s.cell s.pc, s.environment) := by
    rw [epc, State.memRead_ordinary _ hpc, State.cell, emem, State.cell]
  rw [step_running hrun, coreMove_fetch_reads (eheld.trans hheld) hread, epc]

end StepAnswers

/-- Settles O12: a stopped machine answers itself, and the core's move of a running one always answers a next state. -/
theorem everyStepAnswersANextState : Obligations.EveryStepAnswersANextState := by
  intro s
  by_cases hrun : s.run = .running
  · rw [step_running hrun]
    exact coreMove_answers_next s.environment
  · exact ⟨s, step_stopped hrun⟩

theorem State.pcRelative_zero (s : State) : s.pcRelative 0#9 = s.pc := by
  simp [State.pcRelative, sext]

/-- Settles O13: ST with offset 0 stores to the cell at PC, where the next step fetches. -/
theorem storeIsSeenByTheVeryNextFetch : Obligations.StoreIsSeenByTheVeryNextFetch := by
  intro s t sr hwf hrun hheld hpc hexec
  have ht : t = s.setCell s.pc (s.reg sr) := by
    cases hexec
    rw [State.pcRelative_zero, State.memWrite_ordinary _ _ hpc]
  subst ht
  rw [step_fetches_ordinary (s := s.setCell s.pc (s.reg sr)) hrun hheld hpc, State.setCell_pc, State.setCell_cell_self hwf]

end Sys2Proof.Machine

/-! ### The instruction formats (`30_encoding.md` rules R72, R77)

A format is a list of bit fields with their values: the fixed fields, which select the row of the opcode
table, and the operands. Decoding, encoding, the examined bits and the table are each tied to it. -/

namespace Sys2Proof.Machine

open Sys2Proof.Laws

/-- A field of an instruction word: its lowest bit, its width and the value it holds. -/
structure BitField where
  lo : Nat
  width : Nat
  value : BitVec width

/-- The field stands in the word. -/
def BitField.In (f : BitField) (w : Word) : Prop := w.extractLsb' f.lo f.width = f.value

/-- The bits of a word that a field takes. -/
def BitField.mask (f : BitField) : Word := (BitVec.allOnes f.width).setWidth 16 <<< f.lo

/-- The bits of a word that the fields of a format take. -/
def formatMask : List BitField → Word
  | [] => 0#16
  | f :: fs => f.mask ||| formatMask fs

/-- The fields beside the opcode that tell apart the instructions of one opcode: the bit that selects a form, the vector of a
service (`30_encoding.md` rules R75, R76). -/
def selectorFields : Instr → List BitField
  | .addReg _ _ _ | .andReg _ _ _ => [⟨5, 1, 0b0#1⟩]
  | .addImm _ _ _ | .andImm _ _ _ => [⟨5, 1, 0b1#1⟩]
  | .jsr _ => [⟨11, 1, 0b1#1⟩]
  | .jsrr _ => [⟨11, 1, 0b0#1⟩]
  | .trapGetc => [⟨0, 8, 0x20#8⟩]
  | .trapOut => [⟨0, 8, 0x21#8⟩]
  | .trapPuts => [⟨0, 8, 0x22#8⟩]
  | .trapIn => [⟨0, 8, 0x23#8⟩]
  | .trapPutsp => [⟨0, 8, 0x24#8⟩]
  | .trapHalt => [⟨0, 8, 0x25#8⟩]
  | .br _ _ | .ld _ _ | .st _ _ | .ldr _ _ _ | .str _ _ _ | .rti _ | .not _ _ | .ldi _ _ | .sti _ _ | .jmp _ | .reserved _
  | .lea _ _ | .trapUndefined _ _ => []

/-- The fields that have the same value in every word of the instruction. -/
def fixedFields (i : Instr) : List BitField := ⟨12, 4, OpcodeField.number i⟩ :: selectorFields i

/-- The fields that hold the instruction's operands, or what the fault record keeps of an illegal word. -/
def operandFields : Instr → List BitField
  | .br r off | .ld r off | .st r off | .ldi r off | .sti r off | .lea r off => [⟨9, 3, r⟩, ⟨0, 9, off⟩]
  | .addReg dr sr1 sr2 | .andReg dr sr1 sr2 => [⟨9, 3, dr⟩, ⟨6, 3, sr1⟩, ⟨0, 3, sr2⟩]
  | .addImm dr sr1 imm | .andImm dr sr1 imm => [⟨9, 3, dr⟩, ⟨6, 3, sr1⟩, ⟨0, 5, imm⟩]
  | .jsr off => [⟨0, 11, off⟩]
  | .jsrr base | .jmp base => [⟨6, 3, base⟩]
  | .ldr r base off | .str r base off => [⟨9, 3, r⟩, ⟨6, 3, base⟩, ⟨0, 6, off⟩]
  | .rti ignored | .reserved ignored => [⟨0, 12, ignored⟩]
  | .not dr sr => [⟨9, 3, dr⟩, ⟨6, 3, sr⟩]
  | .trapGetc | .trapOut | .trapPuts | .trapIn | .trapPutsp | .trapHalt => []
  | .trapUndefined ignored vect => [⟨8, 4, ignored⟩, ⟨0, 8, vect⟩]

/-- The format of an instruction. -/
def instrFormat (i : Instr) : List BitField := fixedFields i ++ operandFields i

section Masks

variable {v w : Word}

/-- Two words agree under a mask exactly when they agree in each of its bits. -/
theorem and_eq_and_iff_getLsbD (m : Word) :
    v &&& m = w &&& m ↔ ∀ k, m.getLsbD k = true → v.getLsbD k = w.getLsbD k := by
  constructor
  · intro h k hk
    simpa [hk] using congrArg (·.getLsbD k) h
  · intro h
    refine BitVec.eq_of_getLsbD_eq fun k _ => ?_
    cases hk : m.getLsbD k <;> simp [hk, h k]

theorem and_or_eq_and_or_iff (m n : Word) :
    v &&& (m ||| n) = w &&& (m ||| n) ↔ v &&& m = w &&& m ∧ v &&& n = w &&& n := by
  simp only [and_eq_and_iff_getLsbD, BitVec.getLsbD_or, Bool.or_eq_true, or_imp, forall_and]

theorem BitField.getLsbD_mask (f : BitField) (k : Nat) :
    f.mask.getLsbD k = true ↔ k < 16 ∧ f.lo ≤ k ∧ k < f.lo + f.width := by
  simp only [BitField.mask, BitVec.getLsbD_shiftLeft, BitVec.getLsbD_setWidth, BitVec.getLsbD_allOnes, Bool.and_eq_true,
    Bool.not_eq_true', decide_eq_true_eq, decide_eq_false_iff_not]
  omega

/-- Two words agree under a field's mask exactly when they hold the same value in the field. -/
theorem BitField.and_mask_eq_iff (f : BitField) :
    v &&& f.mask = w &&& f.mask ↔ v.extractLsb' f.lo f.width = w.extractLsb' f.lo f.width := by
  rw [and_eq_and_iff_getLsbD]
  constructor
  · intro h
    refine BitVec.eq_of_getLsbD_eq fun k hk => ?_
    by_cases hword : f.lo + k < 16
    · simpa [hk] using h (f.lo + k) ((f.getLsbD_mask _).2 ⟨hword, by omega, by omega⟩)
    · simp [BitVec.getLsbD_of_ge _ _ (Nat.le_of_not_lt hword)]
  · intro h k hk
    obtain ⟨-, hlo, hhi⟩ := (f.getLsbD_mask k).1 hk
    have hbit := congrArg (·.getLsbD (k - f.lo)) h
    simpa [Nat.add_sub_cancel' hlo, Nat.sub_lt_left_of_lt_add hlo hhi] using hbit

/-- A word agrees with one that has the fields of a format, in the bits the format takes, exactly when it has the fields too. -/
theorem and_formatMask_eq_iff {fs : List BitField} (hv : ∀ f ∈ fs, f.In v) :
    w &&& formatMask fs = v &&& formatMask fs ↔ ∀ f ∈ fs, f.In w := by
  induction fs with
  | nil => simp [formatMask]
  | cons f fs ih =>
    rw [List.forall_mem_cons] at hv ⊢
    rw [formatMask, and_or_eq_and_or_iff, ih hv.2, f.and_mask_eq_iff, hv.1, BitField.In]

end Masks

section Formats

/-- The bits the core examines or records (`30_encoding.md` rule R77) are those of the format. -/
theorem examined_eq_formatMask (i : Instr) : i.examined = formatMask (instrFormat i) := by
  cases i <;>
    simp [Instr.examined, instrFormat, fixedFields, selectorFields, operandFields, formatMask, BitField.mask]

/-- An instruction's word has the fields of its format. -/
theorem format_in_encode (i : Instr) : ∀ f ∈ instrFormat i, f.In (encode i) := by
  cases i <;>
    simp only [instrFormat, fixedFields, selectorFields, operandFields, OpcodeField.number, encode, List.cons_append,
      List.nil_append, List.forall_mem_cons, BitField.In] <;>
    simp (disch := omega) only [BitVec.extractLsb'_append_eq_of_le, BitVec.extractLsb'_append_eq_of_add_le] <;>
    simp

variable {w : Word}

/-- Agreeing with an instruction's word in every examined bit is having the fields of the instruction's format. -/
theorem agrees_iff_format_in (i : Instr) :
    w &&& i.examined = encode i &&& i.examined ↔ ∀ f ∈ instrFormat i, f.In w := by
  rw [examined_eq_formatMask, and_formatMask_eq_iff (format_in_encode i)]

theorem format_in_iff (i : Instr) :
    (∀ f ∈ instrFormat i, f.In w) ↔ w.extractLsb' 12 4 = OpcodeField.number i ∧
      (∀ f ∈ selectorFields i, f.In w) ∧ ∀ f ∈ operandFields i, f.In w := by
  rw [instrFormat, fixedFields, List.cons_append, List.forall_mem_cons, List.forall_mem_append, BitField.In]

theorem isServiceVector_eq_false_iff (vect : BitVec 8) :
    isServiceVector vect = false ↔ ¬ (0x20 ≤ vect.toNat ∧ vect.toNat ≤ 0x25) := by
  rw [isServiceVector, ← Bool.decide_and, decide_eq_false_iff_not]

theorem decodeTrap_of_not_service (h : isServiceVector (w.extractLsb' 0 8) = false) :
    decodeTrap w = .trapUndefined (w.extractLsb' 8 4) (w.extractLsb' 0 8) := by
  simp only [decodeTrap]
  split_ifs with h0 h1 h2 h3 h4 h5 <;> simp_all [isServiceVector]

/-- A word that has the fields of a well-formed instruction's format decodes to it. -/
theorem decode_of_format_in {i : Instr} (hwf : i.wellFormed = true) (h : ∀ f ∈ instrFormat i, f.In w) :
    decode w = i := by
  obtain ⟨hop, hsel, hargs⟩ := (format_in_iff i).1 h
  cases i <;>
    simp only [OpcodeField.number, selectorFields, operandFields, List.forall_mem_cons, BitField.In] at hop hsel hargs
  case br | ld | st | ldi | sti | lea | not =>
    obtain ⟨rfl, rfl, -⟩ := hargs
    rw [decode, hop]
    rfl
  case ldr | str =>
    obtain ⟨rfl, rfl, rfl, -⟩ := hargs
    rw [decode, hop]
    rfl
  case jmp | rti | reserved =>
    obtain ⟨rfl, -⟩ := hargs
    rw [decode, hop]
    rfl
  case addReg | andReg =>
    obtain ⟨rfl, rfl, rfl, -⟩ := hargs
    rw [decode, hop]
    exact if_neg (by simp [BitVec.getElem_eq_extractLsb', hsel])
  case addImm | andImm =>
    obtain ⟨rfl, rfl, rfl, -⟩ := hargs
    rw [decode, hop]
    exact if_pos (by simp [BitVec.getElem_eq_extractLsb', hsel])
  case jsr =>
    obtain ⟨rfl, -⟩ := hargs
    rw [decode, hop]
    exact if_pos (by simp [BitVec.getElem_eq_extractLsb', hsel])
  case jsrr =>
    obtain ⟨rfl, -⟩ := hargs
    rw [decode, hop]
    exact if_neg (by simp [BitVec.getElem_eq_extractLsb', hsel])
  case trapGetc | trapOut | trapPuts | trapIn | trapPutsp | trapHalt =>
    rw [decode_of_trap hop]
    simp [decodeTrap, hsel]
  case trapUndefined =>
    obtain ⟨rfl, rfl, -⟩ := hargs
    rw [decode_of_trap hop]
    exact decodeTrap_of_not_service (by simpa [Instr.wellFormed] using hwf)

theorem selectors_in_decodeTrap (w : Word) : ∀ f ∈ selectorFields (decodeTrap w), f.In w := by
  simp only [decodeTrap]
  split_ifs with h0 h1 h2 h3 h4 h5 <;> simp [selectorFields, BitField.In, *]

theorem operands_in_decodeTrap (w : Word) : ∀ f ∈ operandFields (decodeTrap w), f.In w := by
  simp only [decodeTrap]
  split_ifs <;> simp [operandFields, BitField.In]

theorem selectors_in_decode (w : Word) : ∀ f ∈ selectorFields (decode w), f.In w := by
  unfold decode
  split
  case h_2 | h_5 | h_6 =>
    split <;> rename_i hform <;> rw [BitVec.getElem_eq_extractLsb', beq_iff_eq] at hform
    · exact List.forall_mem_singleton.2 hform
    · exact List.forall_mem_singleton.2 ((BitVec.eq_zero_or_eq_one _).resolve_right hform)
  case h_16 => exact selectors_in_decodeTrap w
  all_goals exact List.forall_mem_nil _

theorem operands_in_decode (w : Word) : ∀ f ∈ operandFields (decode w), f.In w := by
  unfold decode
  split
  case h_2 | h_5 | h_6 => split <;> simp [operandFields, BitField.In, field11to9, field8to6, field2to0]
  case h_16 => exact operands_in_decodeTrap w
  all_goals simp [operandFields, BitField.In, field11to9, field8to6, field8to0]

/-- A word has the fields of its instruction's format. -/
theorem format_in_decode (w : Word) : ∀ f ∈ instrFormat (decode w), f.In w :=
  (format_in_iff _).2 ⟨(number_decode w).symm, selectors_in_decode w, operands_in_decode w⟩

theorem wellFormed_decode (w : Word) : (decode w).wellFormed = true := by
  cases hi : decode w with
  | trapUndefined ignored vect =>
    have hop : w.extractLsb' 12 4 = 0xF#4 := by rw [← number_decode, hi]; rfl
    obtain ⟨-, rfl, hvect⟩ := decodeTrap_eq_trapUndefined ((decode_of_trap hop).symm.trans hi)
    rw [Instr.wellFormed, (isServiceVector_eq_false_iff _).2 hvect]
    rfl
  | _ => rfl

/-- A word decodes to a well-formed instruction exactly when it agrees with the instruction's word in every examined bit. -/
theorem decode_eq_iff_agrees {i : Instr} (hwf : i.wellFormed = true) :
    decode w = i ↔ w &&& i.examined = encode i &&& i.examined := by
  rw [agrees_iff_format_in]
  constructor
  · rintro rfl
    exact format_in_decode w
  · exact decode_of_format_in hwf

end Formats

/-- Settles O24: an instruction's word agrees with itself. -/
theorem decodeInvertsEncode : Obligations.DecodeInvertsEncode := by
  intro i hwf
  exact (decode_eq_iff_agrees hwf).2 rfl

/-- Settles O25: decoding to an instruction is agreeing with its word in the examined bits. -/
theorem decodingIgnoresOnlyTheIgnoredBits : Obligations.DecodingIgnoresOnlyTheIgnoredBits := by
  intro w
  have hwf := wellFormed_decode w
  have hagrees := (decode_eq_iff_agrees hwf).1 rfl
  exact ⟨hwf, hagrees.symm, fun w' h => (decode_eq_iff_agrees hwf).2 (h.trans hagrees)⟩

section OpcodeTable

/-- The mask of an instruction's row is that of its fixed fields, and the match holds their values. -/
theorem opcodeTable_row (i : Instr) :
    ∃ r : Word × Word, opcodeTable[i.row]? = some r ∧ r.1 = formatMask (fixedFields i) ∧ r.2 &&& r.1 = r.2 ∧
      ∀ f ∈ fixedFields i, f.In r.2 := by
  cases i <;> exact ⟨_, rfl, by simp [fixedFields, selectorFields, formatMask, BitField.mask], by simp,
    by simp [fixedFields, selectorFields, OpcodeField.number, BitField.In]⟩

/-- A word fits the row of its instruction. -/
theorem decode_fits_row (w : Word) : ∃ r : Word × Word, opcodeTable[(decode w).row]? = some r ∧ w &&& r.1 = r.2 := by
  obtain ⟨r, hrow, hmask, hmatch, hfixed⟩ := opcodeTable_row (decode w)
  refine ⟨r, hrow, ?_⟩
  have hw : ∀ f ∈ fixedFields (decode w), f.In w := fun f hf => format_in_decode w f (List.mem_append_left _ hf)
  rw [← hmatch, hmask]
  exact (and_formatMask_eq_iff hfixed).2 hw

/-- Two rows that one word can fit are the same, or one is the catch-all TRAP row and the other a service's. -/
theorem opcodeTable_overlap :
    ∀ (j : Nat) (hj : j < opcodeTable.length) (k : Nat) (hk : k < opcodeTable.length),
      opcodeTable[j].2 &&& opcodeTable[k].1 = opcodeTable[k].2 &&& opcodeTable[j].1 →
        k = j ∨ (k = 24 ∧ 18 ≤ j ∧ j ≤ 23) ∨ (j = 24 ∧ 18 ≤ k ∧ k ≤ 23) := by
  decide

/-- The row of a service examines what the service's word examines. -/
theorem opcodeTable_service {k : Nat} (hlo : 18 ≤ k) (hhi : k ≤ 23) :
    ∃ i : Instr, i.wellFormed = true ∧ i.row = k ∧ opcodeTable[k]? = some (i.examined, encode i &&& i.examined) := by
  interval_cases k
  · exact ⟨.trapGetc, rfl, rfl, rfl⟩
  · exact ⟨.trapOut, rfl, rfl, rfl⟩
  · exact ⟨.trapPuts, rfl, rfl, rfl⟩
  · exact ⟨.trapIn, rfl, rfl, rfl⟩
  · exact ⟨.trapPutsp, rfl, rfl, rfl⟩
  · exact ⟨.trapHalt, rfl, rfl, rfl⟩

end OpcodeTable

/-- Settles O26: the rows a word fits overlap, so they are one row, or a service's and the catch-all; and a word that fits a
service's row decodes to the service. -/
theorem everyWordSelectsItsTableRow : Obligations.EveryWordSelectsItsTableRow := by
  intro w
  obtain ⟨q, hrow, hq⟩ := decode_fits_row w
  refine ⟨⟨q, hrow, hq⟩, fun k r hk hr => ?_⟩
  by_cases hservice : 18 ≤ k ∧ k ≤ 23
  · obtain ⟨i, hwf, rfl, hi⟩ := opcodeTable_service hservice.1 hservice.2
    obtain rfl := Option.some.inj (hi.symm.trans hk)
    exact .inl (congrArg Instr.row ((decode_eq_iff_agrees hwf).2 hr)).symm
  · have hboth : q.2 &&& r.1 = r.2 &&& q.1 := by
      rw [← hq, ← hr]
      ac_rfl
    obtain ⟨hj, rfl⟩ := List.getElem?_eq_some_iff.1 hrow
    obtain ⟨hlt, rfl⟩ := List.getElem?_eq_some_iff.1 hk
    rcases opcodeTable_overlap _ hj k hlt hboth with heq | hcatchAll | ⟨-, h⟩
    · exact .inl heq
    · exact .inr hcatchAll
    · exact absurd h hservice

section Faults

theorem exec_of_illegalCause {i : Instr} {cause : Cause} (h : illegalCause i = some cause) (s : State) :
    exec i s = .next (s.raiseIllegal cause (encode i)) := by
  cases i with
  | rti | reserved | trapUndefined => cases h; rfl
  | _ => cases h

/-- From a running state exactly the instructions that raise IllegalOpcode end in Faulted. -/
theorem exec_faulted_iff {i : Instr} {s t : State} (hrun : s.run = .running) (h : exec i s = .next t) :
    (∃ cause addr ir, t.run = .faulted cause addr ir) ↔ ∃ cause, illegalCause i = some cause := by
  constructor
  · rintro ⟨_, _, _, hfaulted⟩
    rcases exec_run_changed h (by simp [hfaulted, hrun]) with ⟨-, rfl⟩ | ⟨cause, hcause, -⟩
    · cases hfaulted
    · exact ⟨cause, hcause⟩
  · rintro ⟨cause, hcause⟩
    cases h.symm.trans (exec_of_illegalCause hcause s)
    exact ⟨_, _, _, rfl⟩

/-- The illegal words are the three classes of `30_encoding.md` rule R78. -/
theorem illegalCause_decode_iff (w : Word) :
    (∃ cause, illegalCause (decode w) = some cause) ↔
      (w.extractLsb' 12 4 = 0x8#4 ∨ w.extractLsb' 12 4 = 0xD#4 ∨
       (w.extractLsb' 12 4 = 0xF#4 ∧ ¬ (0x20 ≤ (w.extractLsb' 0 8).toNat ∧ (w.extractLsb' 0 8).toNat ≤ 0x25))) := by
  constructor
  · rintro ⟨cause, hcause⟩
    obtain ⟨-, ⟨-, hop⟩ | ⟨-, hop⟩ | ⟨-, hop, hvect⟩⟩ := decode_illegal hcause
    · exact .inl hop
    · exact .inr (.inl hop)
    · exact .inr (.inr ⟨hop, hvect⟩)
  · rintro (hop | hop | ⟨hop, hvect⟩)
    · exact ⟨.rti, by rw [decode_of_rti hop]; rfl⟩
    · exact ⟨.reserved, by rw [decode_of_reserved hop]; rfl⟩
    · have hservice := (isServiceVector_eq_false_iff _).2 hvect
      exact ⟨.badTrapVector, by rw [decode_of_trap hop, decodeTrap_of_not_service hservice]; rfl⟩

end Faults

/-- Settles O28: a word faults exactly when its instruction raises IllegalOpcode, and the opcode and vector say which do. -/
theorem illegalWordsAreTheThreeClasses : Obligations.IllegalWordsAreTheThreeClasses := by
  intro w s t hrun hexec
  exact (exec_faulted_iff hrun hexec).trans (illegalCause_decode_iff w)

/-- Settles O27: each word is decoded by evaluation. -/
theorem writtenOutWordsDecode : Obligations.WrittenOutWordsDecode := by
  unfold Obligations.WrittenOutWordsDecode
  decide

end Sys2Proof.Machine

/-! ### The cycle around the execute phase (`40_cycle.md` rules R100 to R104) -/

namespace Sys2Proof.Machine

section Cycle

variable {s s₁ : State} {ir : Word}

theorem State.environment_pc (s : State) : s.environment.pc = s.pc := by
  obtain ⟨-, hpc, -, -, -, -, -⟩ := State.environment_same s
  exact hpc

theorem State.environment_held (s : State) : s.environment.held = s.held := by
  obtain ⟨-, -, -, -, -, -, hheld⟩ := State.environment_same s
  exact hheld

theorem step_fetch_reads (hrun : s.run = .running) (hheld : s.held = none)
    (hread : s.environment.memRead s.pc = some (ir, s₁)) : step s = exec (decode ir) (s₁.setPc (s.pc + 1#16)) := by
  rw [← s.environment_pc] at hread ⊢
  rw [step_running hrun, coreMove_fetch_reads (s.environment_held.trans hheld) hread]

theorem step_fetch_waits (hrun : s.run = .running) (hheld : s.held = none)
    (hread : s.environment.memRead s.pc = none) : step s = .next s.environment := by
  rw [← s.environment_pc] at hread
  rw [step_running hrun, coreMove_fetch_waits (s.environment_held.trans hheld) hread]

theorem step_held {k : Held} (hrun : s.run = .running) (hheld : s.held = some k) :
    step s = .next (s.environment.resume k) := by
  rw [step_running hrun, coreMove_held (s.environment_held.trans hheld)]

theorem run_succ_of_step {t : State} (h : step s = .next t) (n : Nat) : core.run (n + 1) s = core.run n t := by
  have hstep : core.step s = .next t := h
  simp only [Host.Core.run, hstep]

end Cycle

/-- Settles O11, by induction on the number of steps. -/
theorem stoppedMachineTakesNoCycle : Obligations.StoppedMachineTakesNoCycle := by
  intro s n hstop
  induction n with
  | zero => rfl
  | succ n ih =>
    exact (run_succ_of_step (step_stopped hstop) n).trans ih

/-- Settles O9: the fetch reads at PC; at an ordinary PC it reads the cell. -/
theorem stepRunsTheDecodedInstruction : Obligations.StepRunsTheDecodedInstruction := by
  refine ⟨fun _ _ _ => step_fetch_reads, fun s hrun hheld hkbsr hkbdr => ?_⟩
  exact step_fetches_ordinary hrun hheld ⟨hkbsr, hkbdr⟩

/-- Settles O10: with an empty slot the read of KBDR waits, and so does the fetch. -/
theorem fetchFromKeyboardDataWaits : Obligations.FetchFromKeyboardDataWaits := by
  intro s hrun hheld hpc hempty
  exact step_fetch_waits hrun hheld (State.memRead_none.2 ⟨hpc, hempty⟩)

end Sys2Proof.Machine

/-! ### Waiting for a character and going on (`40_cycle.md` rule R104, decision D30) -/

namespace Sys2Proof.Machine

section Waiting

variable {s s' : State}

theorem State.setHeld_setHeld_of_held {j k : Option Held} (h : s.held = k) : (s.setHeld j).setHeld k = s := by
  subst h
  rfl

/-- With an empty slot no read takes a character, so a read that answers leaves the state alone. -/
theorem State.memRead_same_of_empty {a v : Word} (hempty : s.kbd = none) (hread : s.memRead a = some (v, s')) : s' = s := by
  rcases State.memRead_changes hread with h | ⟨-, c, hfull, -⟩
  · exact h
  · rw [hempty] at hfull; cases hfull

theorem ordinary_zext (c : Byte) : Ordinary (zext c) := by
  have hlt : (zext c).toNat < 256 := toNat_zext (by decide) c ▸ c.isLt
  constructor <;> intro h <;> rw [h] at hlt <;> exact absurd hlt (by decide)

theorem State.load_ordinary (dr : RegId) {ea : Word} (h : Ordinary ea) : s.load dr ea = s.writeResult dr (s.cell ea) :=
  State.load_read (State.memRead_ordinary s h)

variable {chars : Word → List Byte} {again : Word → Held} {p w : Word}

/-- A string service that comes to a cell whose read waits is held there, whatever is left of its trip. -/
theorem State.scan_waits (n : Nat) (h : s.memRead p = none) : State.scan chars again n p s = s.setHeld (some (again p)) := by
  cases n with
  | zero => rfl
  | succ n => simp [State.scan, h]

theorem State.scan_stops (n : Nat) (h : s.memRead p = some (w, s')) (hw : w = 0x0000#16) :
    State.scan chars again (n + 1) p s = s' := by
  simp [State.scan, h, hw]

theorem State.scan_goes_on (n : Nat) (h : s.memRead p = some (w, s')) (hw : w ≠ 0x0000#16) :
    State.scan chars again (n + 1) p s = State.scan chars again n (p + 1#16) (s'.emit (chars w)) := by
  simp [State.scan, h, hw]

end Waiting

/-- Settles O53: each of the reads is one of KBDR, and the input of GETC and of IN is `InChar`. -/
theorem inputWithoutACharacterIsHeld : Obligations.InputWithoutACharacterIsHeld := by
  intro s hempty
  have hwait : s.memRead 0xFE02#16 = none := State.memRead_kbdr_empty hempty
  refine ⟨fun dr off hea => ?_, fun dr off s₁ hread => ?_, fun dr base off hea => ?_, ?_, ?_⟩
  · simp only [exec, execLd, execLdi, execSti, State.pcRelative, hea]
    exact ⟨congrArg _ (State.load_wait hwait), congrArg _ (State.loadIndirect_wait hwait),
      congrArg _ (State.storeIndirect_wait hwait)⟩
  · obtain rfl := State.memRead_same_of_empty hempty hread
    simp only [exec, execLdi, State.pcRelative]
    rw [State.loadIndirect_read hread, State.load_wait hwait]
  · simp only [exec, execLdr, State.baseOffset, hea]
    rw [State.load_wait hwait]
  · exact congrArg _ (State.getc_empty hempty)
  · exact congrArg _ (State.inEcho_empty (s := s.emit inPrompt) hempty)

/-- With the slot still empty, an instruction that waits at KBDR is held again in the same way. -/
theorem State.resume_waits {s : State} {h : Held} (hheld : s.held = some h) (hlegal : h.Legal)
    (hstring : ∀ p, h = .puts p ∨ h = .putsp p → p = Config.kbdrAddr) (hempty : s.kbd = none) : s.resume h = s := by
  have hslot : (s.setHeld none).kbd = none := hempty
  have hwait : (s.setHeld none).memRead Config.kbdrAddr = none := State.memRead_kbdr_empty hslot
  refine Eq.trans (b := (s.setHeld none).setHeld (some h)) ?_ (State.setHeld_setHeld_of_held hheld)
  cases h with
  | load dr ea => cases hlegal; exact State.load_wait hwait
  | loadIndirect dr pa => cases hlegal; exact State.loadIndirect_wait hwait
  | storeIndirect sr pa => cases hlegal; exact State.storeIndirect_wait hwait
  | getc => exact State.getc_empty hslot
  | inEcho => exact State.inEcho_empty hslot
  | puts p => cases hstring p (.inl rfl); exact State.scan_waits _ hwait
  | putsp p => cases hstring p (.inr rfl); exact State.scan_waits _ hwait

/-- Settles O54: the waiting operation is issued again after the environment's move, and waits again. -/
theorem heldInstructionWaitsUntilDelivery : Obligations.HeldInstructionWaitsUntilDelivery := by
  intro s h hrun hheld hlegal hstring hempty
  rw [step_held hrun hheld, State.resume_waits (s.environment_held.trans hheld) hlegal hstring hempty]

/-- With a full slot every held instruction but a string service takes the character and completes. LDI and STI need no second
one: a zero-extended character is an ordinary address. -/
theorem State.resume_completes {s : State} {h : Held} {c : Byte} (hlegal : h.Legal)
    (hstring : ∀ p, h ≠ .puts p ∧ h ≠ .putsp p) (hfull : s.kbd = some c) :
    (s.resume h).held = none ∧ (s.resume h).kbd = none := by
  have hslot : (s.setHeld none).kbd = some c := hfull
  have hread := State.memRead_kbdr_full hslot
  cases h with
  | load dr ea => cases hlegal; rw [State.resume, State.load_read hread]; exact ⟨rfl, rfl⟩
  | loadIndirect dr pa =>
    cases hlegal
    rw [State.resume, State.loadIndirect_read hread, State.load_ordinary dr (ordinary_zext c)]
    exact ⟨rfl, rfl⟩
  | storeIndirect sr pa =>
    cases hlegal
    rw [State.resume, State.storeIndirect_read hread]
    obtain ⟨-, -, -, -, hkbd, -, hheld, -⟩ := State.memWrite_frame ((s.setHeld none).setKbd none) (zext c) (s.reg sr)
    exact ⟨hheld, hkbd⟩
  | getc => rw [State.resume, State.getc_full hslot]; exact ⟨rfl, rfl⟩
  | inEcho => rw [State.resume, State.inEcho_full hslot]; exact ⟨rfl, rfl⟩
  | puts p => exact absurd rfl (hstring p).1
  | putsp p => exact absurd rfl (hstring p).2

/-- Settles O56: the waiting operation is issued again after the environment's move, and finds the character. -/
theorem heldInstructionCompletesOnDelivery : Obligations.HeldInstructionCompletesOnDelivery := by
  intro s h c hrun hheld hlegal hfull
  obtain ⟨-, -, -, erun, -, -, -⟩ := State.environment_same s
  obtain ⟨hpc, hrunning⟩ := State.resume_frame s.environment h
  exact ⟨_, step_held hrun hheld, rfl, hpc.trans s.environment_pc, hrunning.trans (erun.trans hrun),
    fun hstring => State.resume_completes hlegal hstring hfull⟩

end Sys2Proof.Machine

/-! ### Holding and delivering as one transition (decision D30) -/

namespace Sys2Proof.Machine

/-- From `s`, if `op` is held, going on with it once `c` is in the slot gives what `op` gives with `c` in the slot from the
start. -/
def HoldsThenGoesOn (op : State → State) (s : State) : Prop :=
  ∀ (h : Held) (c : Byte), (op s).held = some h → op (s.setKbd (some c)) = ((op s).setKbd (some c)).resume h

namespace HoldsThenGoesOn

variable {op : State → State} {s : State}

theorem of_completes (h : (op s).held = none) : HoldsThenGoesOn op s := by
  intro k c hheld
  rw [h] at hheld
  cases hheld

/-- An operation that waits before it has done anything, and is itself what is issued again. -/
theorem of_waits {k : Held} (hfree : s.held = none) (hwait : op s = s.setHeld (some k))
    (hresume : ∀ u : State, u.resume k = op (u.setHeld none)) : HoldsThenGoesOn op s := by
  intro h c hheld
  rw [hwait] at hheld ⊢
  cases hheld
  rw [hresume]
  exact congrArg op (State.setHeld_setHeld_of_held (s := s.setKbd (some c)) hfree).symm

end HoldsThenGoesOn

section Operations

variable {s : State} (hempty : s.kbd = none) (hfree : s.held = none)

include hempty hfree

theorem load_holdsThenGoesOn (dr : RegId) (ea : Word) : HoldsThenGoesOn (·.load dr ea) s := by
  cases hread : s.memRead ea with
  | none => exact .of_waits hfree (State.load_wait hread) fun _ => rfl
  | some r =>
    obtain ⟨v, s'⟩ := r
    obtain rfl := State.memRead_same_of_empty hempty hread
    refine .of_completes ?_
    rw [State.load_read hread]
    exact hfree

/-- If the pointer read answers, the character does not change the pointer: the only read it could change is that of KBSR, and
with an empty slot the pointer there is 0x0000, whose read does not wait. -/
theorem loadIndirect_holdsThenGoesOn (dr : RegId) (pa : Word) : HoldsThenGoesOn (·.loadIndirect dr pa) s := by
  cases hread : s.memRead pa with
  | none => exact .of_waits hfree (State.loadIndirect_wait hread) fun _ => rfl
  | some r =>
    obtain ⟨ea, s'⟩ := r
    obtain rfl := State.memRead_same_of_empty hempty hread
    rcases State.memRead_some hread with ⟨rfl, hea, -⟩ | ⟨-, ⟨c, hfull, -⟩, -⟩ | ⟨hordinary, rfl, -⟩
    · refine .of_completes ?_
      rw [State.loadIndirect_read hread, hea, State.kbsr, hempty, State.load_ordinary dr (by decide)]
      exact hfree
    · rw [hempty] at hfull; cases hfull
    · have hop (u : State) : u.loadIndirect dr pa = u.load dr (u.cell pa) :=
        State.loadIndirect_read (State.memRead_ordinary u hordinary)
      intro h c
      simp only [hop]
      exact load_holdsThenGoesOn hempty hfree dr (s'.cell pa) h c

theorem storeIndirect_holdsThenGoesOn (sr : RegId) (pa : Word) : HoldsThenGoesOn (·.storeIndirect sr pa) s := by
  cases hread : s.memRead pa with
  | none => exact .of_waits hfree (State.storeIndirect_wait hread) fun _ => rfl
  | some r =>
    obtain ⟨ea, s'⟩ := r
    obtain rfl := State.memRead_same_of_empty hempty hread
    obtain ⟨-, -, -, -, -, -, hheld, -⟩ := State.memWrite_frame s' ea (s'.reg sr)
    refine .of_completes ?_
    rw [State.storeIndirect_read hread]
    exact hheld.trans hfree

theorem getc_holdsThenGoesOn : HoldsThenGoesOn State.getc s :=
  .of_waits hfree (State.getc_empty hempty) fun _ => rfl

theorem inEcho_holdsThenGoesOn : HoldsThenGoesOn State.inEcho s :=
  .of_waits hfree (State.inEcho_empty hempty) fun _ => rfl

end Operations

section StringServices

variable {chars : Word → List Byte} {again : Word → Held} {s : State} {p : Word}

theorem behind_kbsr_iff : (Config.kbsrAddr < p ∧ p ≤ Config.kbdrAddr) ↔ p = 0xFE01#16 ∨ p = Config.kbdrAddr := by
  simp only [Config.kbsrAddr, Config.kbdrAddr]
  bv_omega

theorem distance_to_kbsr_lt (hkbsr : p ≠ Config.kbsrAddr) :
    (Config.kbsrAddr - (p + 1#16)).toNat < (Config.kbsrAddr - p).toNat := by
  simp only [Config.kbsrAddr] at *
  bv_omega

/-- With an empty slot KBSR reads as a zero cell, so a string service that begins ahead of it ends there at the latest. -/
theorem scan_ends_at_kbsr (n : Nat) (hempty : s.kbd = none) (hahead : ¬ (p = 0xFE01#16 ∨ p = Config.kbdrAddr))
    (htrip : (Config.kbsrAddr - p).toNat < n) : (State.scan chars again n p s).held = s.held := by
  induction n generalizing p s with
  | zero => exact absurd htrip (Nat.not_lt_zero _)
  | succ n ih =>
    obtain ⟨hbetween, hkbdr⟩ := not_or.1 hahead
    by_cases hkbsr : p = Config.kbsrAddr
    · subst hkbsr
      rw [State.scan_stops n (State.memRead_kbsr_empty hempty) rfl]
    · have hread := State.memRead_ordinary s ⟨hkbsr, hkbdr⟩
      by_cases hw : s.cell p = 0x0000#16
      · rw [State.scan_stops n hread hw]
      · rw [State.scan_goes_on n hread hw]
        refine ih hempty ?_ ((distance_to_kbsr_lt hkbsr).trans_le (Nat.le_of_lt_succ htrip))
        simp only [Config.kbsrAddr, Config.kbdrAddr] at *
        bv_omega

variable (hresume : ∀ (u : State) (q : Word), u.resume (again q) = State.scan chars again (scanTrip q) q (u.setHeld none))
  (hempty : s.kbd = none) (hfree : s.held = none)

include hresume hempty hfree

theorem scan_at_kbdr_holdsThenGoesOn :
    HoldsThenGoesOn (State.scan chars again (scanTrip Config.kbdrAddr) Config.kbdrAddr) s :=
  .of_waits hfree (State.scan_waits _ (State.memRead_kbdr_empty hempty)) fun u => hresume u Config.kbdrAddr

/-- What is left at KBDR of a trip from 0xFE01 is a trip from KBDR: both end at KBSR. -/
theorem scan_before_kbdr_holdsThenGoesOn :
    HoldsThenGoesOn (State.scan chars again (scanTrip 0xFE01#16) 0xFE01#16) s := by
  have htrip : scanTrip 0xFE01#16 = scanTrip Config.kbdrAddr + 1 := by decide
  have hread (u : State) : u.memRead 0xFE01#16 = some (u.cell 0xFE01#16, u) := State.memRead_ordinary u (by decide)
  rw [htrip]
  by_cases hw : s.cell 0xFE01#16 = 0x0000#16
  · refine .of_completes ?_
    rw [State.scan_stops _ (hread s) hw]
    exact hfree
  · intro h c
    rw [State.scan_goes_on _ (hread s) hw, State.scan_goes_on _ (hread (s.setKbd (some c))) hw]
    exact scan_at_kbdr_holdsThenGoesOn (s := s.emit (chars (s.cell 0xFE01#16))) hresume hempty hfree h c

/-- An empty slot holds a string service only if it begins at 0xFE01 or at KBDR. -/
theorem scan_holdsThenGoesOn (p : Word) : HoldsThenGoesOn (State.scan chars again (scanTrip p) p) s := by
  by_cases hbehind : p = 0xFE01#16 ∨ p = Config.kbdrAddr
  · rcases hbehind with rfl | rfl
    · exact scan_before_kbdr_holdsThenGoesOn hresume hempty hfree
    · exact scan_at_kbdr_holdsThenGoesOn hresume hempty hfree
  · refine .of_completes ((scan_ends_at_kbsr _ hempty hbehind ?_).trans hfree)
    rw [scanTrip, if_neg (behind_kbsr_iff.not.2 hbehind)]
    exact State.toNat_lt_memCells _

end StringServices

/-- The instructions that an empty slot can hold go on as the single transition; no other instruction is ever held. -/
theorem exec_setKbd_of_held {i : Instr} {s t : State} {h : Held} (hempty : s.kbd = none) (hfree : s.held = none)
    (hexec : exec i s = .next t) (hheld : t.held = some h) (c : Byte) :
    exec i (s.setKbd (some c)) = .next ((t.setKbd (some c)).resume h) := by
  have hnew : t.held ≠ s.held := by simp [hheld, hfree]
  cases i with
  | ld | ldr => cases hexec; exact congrArg _ (load_holdsThenGoesOn hempty hfree _ _ h c hheld)
  | ldi => cases hexec; exact congrArg _ (loadIndirect_holdsThenGoesOn hempty hfree _ _ h c hheld)
  | sti => cases hexec; exact congrArg _ (storeIndirect_holdsThenGoesOn hempty hfree _ _ h c hheld)
  | trapGetc => cases hexec; exact congrArg _ (getc_holdsThenGoesOn hempty hfree h c hheld)
  | trapIn => cases hexec; exact congrArg _ (inEcho_holdsThenGoesOn (s := s.emit inPrompt) hempty hfree h c hheld)
  | trapPuts | trapPutsp =>
    cases hexec
    exact congrArg _ (scan_holdsThenGoesOn (fun _ _ => rfl) hempty hfree _ h c hheld)
  | br => cases hexec; exact absurd (by split <;> rfl) hnew
  | st | str =>
    cases hexec
    obtain ⟨-, -, -, -, -, -, hkept, -⟩ := State.memWrite_frame s _ _
    exact absurd hkept hnew
  | addReg | addImm | andReg | andImm | not | lea | jsr | jsrr | jmp | rti | reserved | trapOut | trapHalt | trapUndefined =>
    cases hexec
    exact absurd rfl hnew

/-- Settles O55: an instruction never fills the slot, so the character can be delivered to the held state as well. -/
theorem holdThenDeliverIsTheSingleTransition : Obligations.HoldThenDeliverIsTheSingleTransition := by
  intro i s t h c hempty hfree hexec hheld
  obtain ⟨-, hslot⟩ := (kept_slotKeptOrTaken s).exec hexec ⟨rfl, .inl rfl⟩
  have htempty : t.kbd = none := hslot.elim (·.trans hempty) id
  rw [State.deliver_empty hempty, State.deliver_empty htempty]
  exact exec_setKbd_of_held hempty hfree hexec hheld c

end Sys2Proof.Machine

/-! ### ADD, AND, NOT (`41_alu.md` rules R110 to R114) -/

namespace Sys2Proof.Machine

open Sys2Proof.Laws

section Decoding

variable {w : Word}

/-- A word decodes to the well-formed instruction that has its opcode, its selector fields and its operands. -/
theorem decode_of_fields {i : Instr} (hwf : i.wellFormed = true) (hop : w.extractLsb' 12 4 = OpcodeField.number i)
    (hsel : ∀ f ∈ selectorFields i, f.In w) (hargs : ∀ f ∈ operandFields i, f.In w) : decode w = i :=
  decode_of_format_in hwf ((format_in_iff i).2 ⟨hop, hsel, hargs⟩)

variable {k : Nat} {hk : k < 16}

theorem selector_in_of_bit_set (hbit : w[k] = true) : ∀ f ∈ [BitField.mk k 1 0b1#1], f.In w := by
  rw [BitVec.getElem_eq_extractLsb', beq_iff_eq] at hbit
  exact List.forall_mem_singleton.2 hbit

theorem selector_in_of_bit_clear (hbit : w[k] = false) : ∀ f ∈ [BitField.mk k 1 0b0#1], f.In w := by
  rw [BitVec.getElem_eq_extractLsb', beq_eq_false_iff_ne] at hbit
  exact List.forall_mem_singleton.2 ((BitVec.eq_zero_or_eq_one _).resolve_right hbit)

end Decoding

section Results

/-- Writing a result changes the destination register and COND, and nothing else. -/
theorem State.writeResult_frame (s : State) (dr : RegId) (v : Word) :
    (s.writeResult dr v).reg dr = v ∧ (s.writeResult dr v).cond = condOf v ∧ s.SameRegsBut dr (s.writeResult dr v) ∧
    (s.writeResult dr v).pc = s.pc ∧ s.SameMem (s.writeResult dr v) ∧ s.SameRest (s.writeResult dr v) :=
  ⟨by simp, rfl, fun q hq => by simp [hq], rfl, fun _ => rfl, rfl, rfl, rfl, rfl, rfl⟩

variable {n : Nat} (a : Word) (f : BitVec n)

/-- Adding an extended field adds its signed value, modulo 65,536. -/
theorem toNat_add_sext (hn : n ≤ 16) : ((a + sext f).toNat : Int) = (a.toNat + f.toInt) % 65536 := by
  have hsext : (sext f).toInt = f.toInt := BitVec.toInt_signExtend_of_le hn
  rw [BitVec.toNat_add, ← hsext, BitVec.toInt_eq_toNat_cond]
  split <;> omega

theorem getLsbD_and_sext (i : Nat) :
    (a &&& sext f).getLsbD i = (a.getLsbD i && if i < n then f.getLsbD i else f.getLsbD (n - 1)) := by
  rw [BitVec.getLsbD_and]
  by_cases hi : i < 16
  · rw [getLsbD_sext f hi]
  · rw [BitVec.getLsbD_of_ge a i (Nat.le_of_not_lt hi), Bool.false_and, Bool.false_and]

end Results

/-- Settles O29: bit 5 selects the form (decision D3), and the sum of two words is modulo 65,536. -/
theorem addRegisterFormAddsModulo : Obligations.AddRegisterFormAddsModulo := by
  refine ⟨fun w hop hform => ?_, fun dr sr1 sr2 s => ?_⟩
  · exact decode_of_fields rfl hop (selector_in_of_bit_clear hform) (by simp [operandFields, BitField.In])
  · exact ⟨_, s.reg sr1 + s.reg sr2, rfl, BitVec.toNat_add _ _, s.writeResult_frame dr _⟩

/-- Settles O30: bit 5 selects the form (decision D3), and the extended immediate adds as its signed value. -/
theorem addImmediateFormAddsTheSignedImmediate : Obligations.AddImmediateFormAddsTheSignedImmediate := by
  refine ⟨fun w hop hform => ?_, fun dr sr1 imm s => ?_⟩
  · exact decode_of_fields rfl hop (selector_in_of_bit_set hform) (by simp [operandFields, BitField.In])
  · exact ⟨_, s.reg sr1 + sext imm, rfl, toNat_add_sext _ imm (by decide), s.writeResult_frame dr _⟩

/-- Settles O31: bit 5 selects the form (decision D3), and AND works bit by bit. -/
theorem andRegisterFormAndsBitwise : Obligations.AndRegisterFormAndsBitwise := by
  refine ⟨fun w hop hform => ?_, fun dr sr1 sr2 s => ?_⟩
  · exact decode_of_fields rfl hop (selector_in_of_bit_clear hform) (by simp [operandFields, BitField.In])
  · exact ⟨_, s.reg sr1 &&& s.reg sr2, rfl, fun _ => BitVec.getLsbD_and, s.writeResult_frame dr _⟩

/-- Settles O32: bit 5 selects the form (decision D3); the mask's upper bits are copies of the immediate's top bit. -/
theorem andImmediateFormAndsTheSignedImmediate : Obligations.AndImmediateFormAndsTheSignedImmediate := by
  refine ⟨fun w hop hform => ?_, fun dr sr1 imm s => ?_⟩
  · exact decode_of_fields rfl hop (selector_in_of_bit_set hform) (by simp [operandFields, BitField.In])
  · exact ⟨_, s.reg sr1 &&& sext imm, rfl, getLsbD_and_sext _ imm, s.writeResult_frame dr _⟩

/-- Settles O33: the opcode alone selects NOT, and the complement of a word is 0xFFFF minus it. -/
theorem notComplementsAllBits : Obligations.NotComplementsAllBits := by
  refine ⟨fun w hop => ?_, fun dr sr s => ?_⟩
  · exact decode_of_fields rfl hop (List.forall_mem_nil _) (by simp [operandFields, BitField.In])
  · exact ⟨_, ~~~ s.reg sr, rfl, BitVec.toNat_not, s.writeResult_frame dr _⟩

end Sys2Proof.Machine

/-! ### BR, JMP, JSR, JSRR (`42_control.md` rules R120 to R123) -/

namespace Sys2Proof.Machine

open Sys2Proof.Laws

section Jumps

variable (s : State) (v : Word)

/-- Writing PC changes nothing else. -/
theorem State.setPc_frame :
    s.SameRegs (s.setPc v) ∧ (s.setPc v).cond = s.cond ∧ s.SameMem (s.setPc v) ∧ s.SameRest (s.setPc v) :=
  ⟨fun _ => rfl, rfl, fun _ => rfl, rfl, rfl, rfl, rfl, rfl⟩

/-- Linking puts the return address in R7 and leaves every other register as it was. -/
theorem State.link_reg (q : RegId) : s.link.reg q = if q = 7#3 then s.pc else s.reg q := by
  rw [State.link_eq, State.setReg_reg, linkReg]

/-- Linking and then jumping changes R7 and PC, and nothing else. -/
theorem State.link_setPc_frame :
    s.SameRegsBut 7#3 (s.link.setPc v) ∧ (s.link.setPc v).cond = s.cond ∧ s.SameMem (s.link.setPc v) ∧
    s.SameRest (s.link.setPc v) :=
  ⟨fun q hq => (s.link_reg q).trans (if_neg hq), rfl, fun _ => rfl, rfl, rfl, rfl, rfl, rfl⟩

/-- A branch is not taken exactly when no bit is set in both its mask and COND. -/
theorem State.branchTaken_eq_false_iff (nzp : BitVec 3) :
    s.branchTaken nzp = false ↔ ∀ i : Nat, nzp.getLsbD i = true → s.cond.getLsbD i = false := by
  rw [State.branchTaken, bne_eq_false_iff_eq]
  constructor
  · intro hzero i hmask
    simpa [hmask] using congrArg (BitVec.getLsbD · i) hzero
  · intro hdisjoint
    refine BitVec.eq_of_getLsbD_eq fun i _ => ?_
    cases hmask : nzp.getLsbD i with
    | true => simp [hdisjoint i hmask]
    | false => simp [hmask]

end Jumps

/-- Settles O35: the intersection of mask and COND decides the branch (decision D29), and a target is modulo 65,536. -/
theorem branchTakenIffMaskMeetsCond : Obligations.BranchTakenIffMaskMeetsCond := by
  refine ⟨fun w hop => ?_, fun nzp off s => ?_⟩
  · exact decode_of_fields rfl hop (List.forall_mem_nil _) (by simp [operandFields, BitField.In])
  · refine ⟨_, rfl, ?_⟩
    cases htaken : s.branchTaken nzp with
    | true =>
      refine ⟨fun _ => toNat_add_sext s.pc off (by decide), fun hdisjoint => ?_, s.setPc_frame _⟩
      exact absurd ((s.branchTaken_eq_false_iff nzp).2 hdisjoint) (by simp [htaken])
    | false =>
      have hdisjoint := (s.branchTaken_eq_false_iff nzp).1 htaken
      refine ⟨fun ⟨i, hmask, hcond⟩ => ?_, fun _ => rfl, s.setPc_frame s.pc⟩
      exact absurd hcond (by simp [hdisjoint i hmask])

/-- Settles O36: the opcode alone selects JMP, and 0xC1C0 has base register R7. -/
theorem jumpGoesToTheBaseRegister : Obligations.JumpGoesToTheBaseRegister := by
  refine ⟨fun w hop => ?_, by decide, fun base s => ?_⟩
  · exact decode_of_fields rfl hop (List.forall_mem_nil _) (by simp [operandFields, BitField.In])
  · exact ⟨_, rfl, rfl, s.setPc_frame _⟩

/-- Settles O37: bit 11 selects JSR, and the link does not change the PC that the target is computed from. -/
theorem jsrLinksAndGoesToTheTarget : Obligations.JsrLinksAndGoesToTheTarget := by
  refine ⟨fun w hop hform => ?_, fun off s => ?_⟩
  · exact decode_of_fields rfl hop (selector_in_of_bit_set hform) (by simp [operandFields, BitField.In])
  · exact ⟨_, rfl, s.link_reg 7#3, toNat_add_sext s.pc off (by decide), s.link_setPc_frame _⟩

/-- Settles O38: the base register is read after the link, so R7 reads as the return address (decision D21). -/
theorem jsrrLinksThenReadsTheBase : Obligations.JsrrLinksThenReadsTheBase := by
  refine ⟨fun w hop hform => ?_, fun base s => ?_⟩
  · exact decode_of_fields rfl hop (selector_in_of_bit_clear hform) (by simp [operandFields, BitField.In])
  · exact ⟨_, rfl, s.link_reg 7#3, s.link_reg base, s.link_setPc_frame _⟩

end Sys2Proof.Machine

/-! ### LD, LDI, LDR, LEA (`43_load.md` rules R130 to R134) -/

namespace Sys2Proof.Machine

section Loads

variable {s s₁ s₂ t : State} {a v p : Word} (dr : RegId)

theorem State.sameMem_of_mem_eq (h : t.mem = s.mem) : s.SameMem t := fun b => congrArg (·.read b.toNat) h

/-- Only a read of KBDR changes the state. -/
theorem State.memRead_same_of_ne_kbdr (hread : s.memRead a = some (v, s₁)) (hne : a ≠ Config.kbdrAddr) : s₁ = s :=
  (State.memRead_changes hread).resolve_right fun ⟨hkbdr, _⟩ => hne hkbdr

/-- A load that completes ends with writing its result, in the state its last read leaves. -/
theorem State.loaded_of_writeResult (h : t = s₁.writeResult dr v) :
    t.reg dr = v ∧ t.cond = condOf v ∧ s₁.SameRest t := by
  subst h
  obtain ⟨hdr, hcond, -, -, -, hrest⟩ := s₁.writeResult_frame dr v
  exact ⟨hdr, hcond, hrest⟩

/-- The load of LD and LDR when its read answers. -/
theorem State.load_completes (hread : s.memRead a = some (v, s₁)) :
    (s.load dr a).reg dr = v ∧ (s.load dr a).cond = condOf v ∧ s.SameRegsBut dr (s.load dr a) ∧
    (s.load dr a).pc = s.pc ∧ s.SameMem (s.load dr a) ∧ s₁.SameRest (s.load dr a) ∧
    (a ≠ Config.kbdrAddr → s.SameRest (s.load dr a)) := by
  obtain ⟨hpc, -, hmem, -, -, hregs⟩ := s.load_frame dr a
  obtain ⟨hdr, hcond, hrest⟩ := State.loaded_of_writeResult dr (State.load_read hread)
  refine ⟨hdr, hcond, hregs, hpc, State.sameMem_of_mem_eq hmem, hrest, fun hne => ?_⟩
  rwa [State.memRead_same_of_ne_kbdr hread hne] at hrest

/-- The load of LDI when both of its reads answer. -/
theorem State.loadIndirect_completes (hpointer : s.memRead a = some (p, s₁)) (hread : s₁.memRead p = some (v, s₂)) :
    (s.loadIndirect dr a).reg dr = v ∧ (s.loadIndirect dr a).cond = condOf v ∧
    s.SameRegsBut dr (s.loadIndirect dr a) ∧ (s.loadIndirect dr a).pc = s.pc ∧ s.SameMem (s.loadIndirect dr a) ∧
    s₂.SameRest (s.loadIndirect dr a) ∧
    (a ≠ Config.kbdrAddr → p ≠ Config.kbdrAddr → s.SameRest (s.loadIndirect dr a)) := by
  obtain ⟨hpc, -, hmem, -, -, hregs⟩ := s.loadIndirect_frame dr a
  obtain ⟨hdr, hcond, hrest⟩ :=
    State.loaded_of_writeResult dr ((State.loadIndirect_read hpointer).trans (State.load_read hread))
  refine ⟨hdr, hcond, hregs, hpc, State.sameMem_of_mem_eq hmem, hrest, fun hne hne' => ?_⟩
  rwa [State.memRead_same_of_ne_kbdr hread hne', State.memRead_same_of_ne_kbdr hpointer hne] at hrest

end Loads

/-- From `s` to `t` the slot stays as it is or is emptied, and the record of a wait changes only if no character was taken. -/
def State.TakesOrHolds (s t : State) : Prop :=
  (t.kbd = s.kbd ∨ t.kbd = none) ∧ (t.held = s.held ∨ t.kbd = s.kbd)

section Slot

variable (s : State) (dr : RegId) (a : Word)

theorem State.load_takesOrHolds : s.TakesOrHolds (s.load dr a) := by
  cases hread : s.memRead a with
  | none => rw [State.load_wait hread]; exact ⟨.inl rfl, .inr rfl⟩
  | some r =>
    obtain ⟨-, -, -, -, -, -, hheld, -, hkbd⟩ := State.memRead_frame hread
    rw [State.load_read hread]
    exact ⟨hkbd, .inl hheld⟩

/-- If the pointer read takes the character, the pointer is that character, an ordinary address: the second read needs no
other. -/
theorem State.loadIndirect_takesOrHolds : s.TakesOrHolds (s.loadIndirect dr a) := by
  cases hread : s.memRead a with
  | none => rw [State.loadIndirect_wait hread]; exact ⟨.inl rfl, .inr rfl⟩
  | some r =>
    obtain ⟨p, s₁⟩ := r
    rw [State.loadIndirect_read hread]
    rcases State.memRead_some hread with ⟨-, -, rfl⟩ | ⟨-, ⟨c, -, rfl⟩, rfl⟩ | ⟨-, -, rfl⟩
    · exact s₁.load_takesOrHolds dr p
    · rw [State.load_ordinary dr (ordinary_zext c)]
      exact ⟨.inr rfl, .inl rfl⟩
    · exact s₁.load_takesOrHolds dr p

end Slot

/-- LD and LDR are one read and the writing of the result; LDI is a pointer read before it. -/
theorem exec_load_eq {i : Instr} {s t : State} {dr base : RegId} {off9 : BitVec 9} {off6 : BitVec 6}
    (hi : i = .ld dr off9 ∨ i = .ldi dr off9 ∨ i = .ldr dr base off6) (hexec : exec i s = .next t) :
    ∃ a, t = s.load dr a ∨ t = s.loadIndirect dr a := by
  rcases hi with rfl | rfl | rfl <;> cases hexec
  · exact ⟨_, .inl rfl⟩
  · exact ⟨_, .inr rfl⟩
  · exact ⟨_, .inl rfl⟩

/-- Settles O57: each of the two operations has its frame, and takes a character or holds. -/
theorem loadsKeepEverythingElse : Obligations.LoadsKeepEverythingElse := by
  intro i s t dr base off9 off6 hi hexec
  obtain ⟨a, rfl | rfl⟩ := exec_load_eq hi hexec
  · obtain ⟨hpc, hrun, hmem, hout, harrivals, hregs⟩ := s.load_frame dr a
    exact ⟨hregs, hpc, State.sameMem_of_mem_eq hmem, hrun, hout, harrivals, s.load_takesOrHolds dr a⟩
  · obtain ⟨hpc, hrun, hmem, hout, harrivals, hregs⟩ := s.loadIndirect_frame dr a
    exact ⟨hregs, hpc, State.sameMem_of_mem_eq hmem, hrun, hout, harrivals, s.loadIndirect_takesOrHolds dr a⟩

/-- Settles O34: LEA writes the address itself as the result. -/
theorem leaWritesTheAddressAndTheFlags : Obligations.LeaWritesTheAddressAndTheFlags := by
  refine ⟨fun w hop => ?_, fun dr off s => ?_⟩
  · exact decode_of_fields rfl hop (List.forall_mem_nil _) (by simp [operandFields, BitField.In])
  · exact ⟨_, s.pc + sext off, rfl, toNat_add_sext s.pc off (by decide), s.writeResult_frame dr _⟩

/-- Settles O39: LD is a load from PC + offset. -/
theorem ldLoadsTheCellAtPcPlusOffset : Obligations.LdLoadsTheCellAtPcPlusOffset := by
  refine ⟨fun w hop => ?_, fun dr off s s₁ v hread => ?_⟩
  · exact decode_of_fields rfl hop (List.forall_mem_nil _) (by simp [operandFields, BitField.In])
  · exact ⟨_, rfl, State.load_completes dr hread⟩

/-- Settles O40: LDR is a load from an address computed before DR is written. -/
theorem ldrLoadsTheCellAtBasePlusOffset : Obligations.LdrLoadsTheCellAtBasePlusOffset := by
  refine ⟨fun w hop => ?_, fun dr base off s s₁ v hread => ?_⟩
  · exact decode_of_fields rfl hop (List.forall_mem_nil _) (by simp [operandFields, BitField.In])
  · exact ⟨_, rfl, State.load_completes dr hread⟩

/-- Settles O41: the second read is made in the state the pointer read leaves. -/
theorem ldiLoadsThroughThePointer : Obligations.LdiLoadsThroughThePointer := by
  refine ⟨fun w hop => ?_, fun dr off s s₁ s₂ p v hpointer hread => ?_⟩
  · exact decode_of_fields rfl hop (List.forall_mem_nil _) (by simp [operandFields, BitField.In])
  · exact ⟨_, rfl, State.loadIndirect_completes dr hpointer hread⟩

end Sys2Proof.Machine

/-! ### ST, STI, STR (`44_store.md` rules R140 to R143) -/

namespace Sys2Proof.Machine

section Stores

variable {s s₁ : State} {a p : Word}

/-- The one write of a store: at a keyboard register it is lost, at any other address it changes that cell only. -/
theorem State.memWrite_completes (hwf : s.mem.wf) (a v : Word) :
    (if a = 0xFE00#16 ∨ a = 0xFE02#16 then s.SameMem (s.memWrite a v)
      else (s.memWrite a v).cell a = v ∧ s.SameMemBut a (s.memWrite a v)) ∧
    s.SameRegs (s.memWrite a v) ∧ (s.memWrite a v).pc = s.pc ∧ (s.memWrite a v).cond = s.cond ∧
    s.SameRest (s.memWrite a v) := by
  split
  · next hmapped =>
    rw [writesToKeyboardRegistersAreLost s a v hmapped]
    exact ⟨fun _ => rfl, fun _ => rfl, rfl, rfl, rfl, rfl, rfl, rfl, rfl⟩
  · next hordinary =>
    obtain ⟨hkbsr, hkbdr⟩ := not_or.1 hordinary
    obtain ⟨hcell, -, hothers, hframe⟩ := ordinaryWriteThenReadGivesTheValue s a v hwf hkbsr hkbdr
    exact ⟨⟨hcell, hothers⟩, hframe⟩

/-- The pointer read of STI takes the slot's character at most, so what its write keeps or stores is told of the state before
the read. -/
theorem State.storeIndirect_completes (hwf : s.mem.wf) (hread : s.memRead a = some (p, s₁)) (sr : RegId) :
    (if p = 0xFE00#16 ∨ p = 0xFE02#16 then s.SameMem (s.storeIndirect sr a)
      else (s.storeIndirect sr a).cell p = s.reg sr ∧ s.SameMemBut p (s.storeIndirect sr a)) ∧
    s.SameRegs (s.storeIndirect sr a) ∧ (s.storeIndirect sr a).pc = s.pc ∧ (s.storeIndirect sr a).cond = s.cond ∧
    s₁.SameRest (s.storeIndirect sr a) ∧ (a ≠ Config.kbdrAddr → s.SameRest (s.storeIndirect sr a)) := by
  rw [State.storeIndirect_read hread]
  rcases State.memRead_changes hread with rfl | ⟨hkbdr, c, -, rfl⟩
  · obtain ⟨hmem, hregs, hpc, hcond, hrest⟩ := State.memWrite_completes hwf p (s₁.reg sr)
    exact ⟨hmem, hregs, hpc, hcond, hrest, fun _ => hrest⟩
  · obtain ⟨hmem, hregs, hpc, hcond, hrest⟩ := State.memWrite_completes (s := s.setKbd none) hwf p (s.reg sr)
    exact ⟨hmem, hregs, hpc, hcond, hrest, fun hne => absurd hkbdr hne⟩

end Stores

/-- Settles O42: ST is one write at PC + offset. -/
theorem stStoresTheRegisterAtPcPlusOffset : Obligations.StStoresTheRegisterAtPcPlusOffset := by
  refine ⟨fun w hop => ?_, fun sr off s hwf => ?_⟩
  · exact decode_of_fields rfl hop (List.forall_mem_nil _) (by simp [operandFields, BitField.In])
  · exact ⟨_, rfl, State.memWrite_completes hwf _ _⟩

/-- Settles O43: STR is one write at BaseR + offset, lost at a keyboard register (decision D35). -/
theorem strStoresTheRegisterAtBasePlusOffset : Obligations.StrStoresTheRegisterAtBasePlusOffset := by
  refine ⟨fun w hop => ?_, fun sr base off s hwf => ?_⟩
  · exact decode_of_fields rfl hop (List.forall_mem_nil _) (by simp [operandFields, BitField.In])
  · exact ⟨_, rfl, State.memWrite_completes hwf _ _⟩

/-- Settles O44: the write of STI goes to the address that the pointer read answers. -/
theorem stiStoresTheRegisterThroughThePointer : Obligations.StiStoresTheRegisterThroughThePointer := by
  refine ⟨fun w hop => ?_, fun sr off s s₁ p hwf hread => ?_⟩
  · exact decode_of_fields rfl hop (List.forall_mem_nil _) (by simp [operandFields, BitField.In])
  · exact ⟨_, rfl, State.storeIndirect_completes hwf hread sr⟩

end Sys2Proof.Machine

/-! ### PUTS and PUTSP (`45_trap.md` rules R153, R155) -/

namespace Sys2Proof.Machine

/-- From `s` to `t` the characters `l` have been written, the slot has become `slot` and the record of a wait `record`, and
nothing else has changed. -/
def State.Writes (l : List Byte) (slot : Option Byte) (record : Option Held) (s t : State) : Prop :=
  t.out = s.out ++ l ∧ s.SameRegs t ∧ t.pc = s.pc ∧ t.cond = s.cond ∧ s.SameMem t ∧
  t.run = s.run ∧ t.kbd = slot ∧ t.held = record ∧ t.arrivals = s.arrivals

section Strings

/-- Reading the cells of a string neither writes nor holds anything. -/
theorem State.readsCells_frame {ws : List Word} {p : Word} {s s₁ : State} (hreads : State.ReadsCells ws p s s₁) :
    s₁.out = s.out ∧ s₁.held = s.held := by
  induction ws generalizing p s with
  | nil =>
    cases hreads
    exact ⟨rfl, rfl⟩
  | cons w ws ih =>
    obtain ⟨-, s', hread, hrest⟩ := hreads
    obtain ⟨-, -, -, -, -, hout, hheld, -, -⟩ := State.memRead_frame hread
    obtain ⟨ihout, ihheld⟩ := ih hrest
    exact ⟨ihout.trans hout, ihheld.trans hheld⟩

/-- The characters of PUTSP as `45_trap.md` rule R155 gives them: the low byte, then the high byte unless it is zero. -/
theorem putspChars_eq : putspChars = fun w => w.extractLsb' 0 8 :: [w.extractLsb' 8 8].filter (· ≠ 0x00#8) := by
  funext w
  by_cases hhigh : w.extractLsb' 8 8 = 0x00#8
  · simp [putspChars, hhigh]
  · simp [putspChars, hhigh]

variable {chars : Word → List Byte} {again : Word → Held} {ws : List Word} {n : Nat} {p : Word} {s s₁ s₂ : State}

/-- The loop of a string service leaves all but OUT, the slot and the record of a wait alone, so the state it ends in says what
it writes. -/
theorem State.scan_writes {l : List Byte} {slot : Option Byte} {record : Option Held} {t : State}
    (hscan : State.scan chars again n p s = t) (hout : t.out = s.out ++ l) (hkbd : t.kbd = slot) (hheld : t.held = record) :
    State.Writes l slot record s (State.scan chars again n p s) := by
  subst hscan
  obtain ⟨hregs, hpc, hcond, hrun, hmem, harrivals, -⟩ := State.scan_frame chars again n p s
  exact ⟨hout, fun q => by rw [State.reg, State.reg, hregs], hpc, hcond, State.sameMem_of_mem_eq hmem, hrun, hkbd, hheld,
    harrivals⟩

/-- A zero cell ends the string. -/
theorem State.scan_ends (hreads : State.ReadsCells ws p s s₁) (hlen : ws.length < n)
    (hzero : s₁.memRead (p + BitVec.ofNat 16 ws.length) = some (0x0000#16, s₂)) :
    State.Writes (ws.flatMap chars) s₂.kbd s.held s (State.scan chars again n p s) := by
  obtain ⟨hends, -, -⟩ := State.scan_spec chars again ws n p s s₁ hreads
  obtain ⟨hout, hheld⟩ := State.readsCells_frame hreads
  obtain ⟨-, -, -, -, -, hout', hheld', -, -⟩ := State.memRead_frame hzero
  exact State.scan_writes (hends s₂ hlen hzero) (by rw [State.emit_out, hout', hout]) rfl (hheld'.trans hheld)

/-- A read that waits, which is one of KBDR with an empty slot, holds the service there. -/
theorem State.scan_held (hreads : State.ReadsCells ws p s s₁) (hlen : ws.length < n)
    (hwait : s₁.memRead (p + BitVec.ofNat 16 ws.length) = none) :
    State.Writes (ws.flatMap chars) none (some (again 0xFE02#16)) s (State.scan chars again n p s) := by
  obtain ⟨-, hholds, -⟩ := State.scan_spec chars again ws n p s s₁ hreads
  obtain ⟨hout, -⟩ := State.readsCells_frame hreads
  obtain ⟨hkbdr, hempty⟩ := State.memRead_none.1 hwait
  exact State.scan_writes (hholds hlen hwait) (by rw [State.setHeld_out, State.emit_out, hout]) hempty
    (congrArg (fun a => some (again a)) hkbdr)

/-- After a trip without a zero cell the service is in progress at the next cell. -/
theorem State.scan_trip (hreads : State.ReadsCells ws p s s₁) (hlen : ws.length = n) :
    State.Writes (ws.flatMap chars) s₁.kbd (some (again (p + BitVec.ofNat 16 ws.length))) s
      (State.scan chars again n p s) := by
  obtain ⟨-, -, htrip⟩ := State.scan_spec chars again ws n p s s₁ hreads
  obtain ⟨hout, -⟩ := State.readsCells_frame hreads
  exact State.scan_writes (htrip hlen) (by rw [State.setHeld_out, State.emit_out, hout]) rfl rfl

end Strings

theorem exec_trapPuts (s : State) :
    exec .trapPuts s = .next (State.scan putsChars .puts (scanTrip (s.reg 0#3)) (s.reg 0#3) s) := rfl

theorem exec_trapPutsp (s : State) :
    exec .trapPutsp s = .next (State.scan putspChars .putsp (scanTrip (s.reg 0#3)) (s.reg 0#3) s) := rfl

/-- Settles O47: the loop of PUTS from R0, at a zero cell and at a read that waits. -/
theorem putsWritesLowBytesUntilAZeroCell : Obligations.PutsWritesLowBytesUntilAZeroCell := by
  intro s s₁ ws hreads hlen
  rw [List.map_eq_flatMap]
  exact ⟨fun s₂ hzero => ⟨_, exec_trapPuts s, State.scan_ends hreads hlen hzero⟩,
    fun hwait => ⟨_, exec_trapPuts s, State.scan_held hreads hlen hwait⟩⟩

/-- Settles O48: the loop of PUTSP from R0, at a zero cell and at a read that waits. -/
theorem putspWritesBothBytesUntilAZeroCell : Obligations.PutspWritesBothBytesUntilAZeroCell := by
  intro s s₁ ws hreads hlen
  rw [← putspChars_eq]
  exact ⟨fun s₂ hzero => ⟨_, exec_trapPutsp s, State.scan_ends hreads hlen hzero⟩,
    fun hwait => ⟨_, exec_trapPutsp s, State.scan_held hreads hlen hwait⟩⟩

/-- Settles O49: the loop of either service has read its whole trip. -/
theorem stringWithoutZeroCellGoesOn : Obligations.StringWithoutZeroCellGoesOn := by
  intro s s₁ ws hreads hlen
  rw [List.map_eq_flatMap, ← putspChars_eq]
  constructor
  · obtain ⟨hout, hregs, hpc, hcond, hmem, hrun, hkbd, hheld, harrivals⟩ := State.scan_trip hreads hlen
    exact ⟨_, exec_trapPuts s, hheld, hout, hregs, hpc, hcond, hmem, hrun, hkbd, harrivals⟩
  · obtain ⟨hout, hregs, hpc, hcond, hmem, hrun, hkbd, hheld, harrivals⟩ := State.scan_trip hreads hlen
    exact ⟨_, exec_trapPutsp s, hheld, hout, hregs, hpc, hcond, hmem, hrun, hkbd, harrivals⟩

end Sys2Proof.Machine

/-! ### A string service in progress goes on (`40_cycle.md` rule R104, logs 4, 5) -/

namespace Sys2Proof.Machine

/-- Going on with a string service in progress is its loop from the cell it has come to, no longer held. -/
theorem step_string_in_progress {again : Word → Held} {chars : Word → List Byte} {s : State} {p : Word}
    (hservice : again = .puts ∧ chars = putsChars ∨ again = .putsp ∧ chars = putspChars)
    (hrun : s.run = .running) (hheld : s.held = some (again p)) :
    step s = .next (State.scan chars again (scanTrip p) p (s.environment.setHeld none)) := by
  rcases hservice with ⟨rfl, rfl⟩ | ⟨rfl, rfl⟩ <;> exact step_held hrun hheld

/-- What is written after the environment's move and the release of the record is written after `s`: the move leaves all but
the slot and the plan alone. -/
theorem State.Writes.of_released {l : List Byte} {slot : Option Byte} {record : Option Held} {s t : State}
    (hrun : s.run = .running) (hwrites : State.Writes l slot record (s.environment.setHeld none) t) :
    t.held = record ∧ t.kbd = slot ∧ t.out = s.out ++ l ∧ s.SameRegs t ∧ t.pc = s.pc ∧ t.cond = s.cond ∧ s.SameMem t ∧
    t.run = .running ∧ t.arrivals = s.environment.arrivals := by
  obtain ⟨eregs, epc, econd, erun, emem, eout, -⟩ := State.environment_same s
  obtain ⟨hout, hregs, hpc, hcond, hmem, hrun', hkbd, hheld, harrivals⟩ := hwrites
  refine ⟨hheld, hkbd, hout.trans (congrArg (· ++ l) eout), fun q => (hregs q).trans ?_, hpc.trans epc, hcond.trans econd,
    fun a => (hmem a).trans (State.sameMem_of_mem_eq emem a), hrun'.trans (erun.trans hrun), harrivals⟩
  exact congrArg (·[q.toNat]'q.isLt) eregs

/-- Settles O59: the loop from `p`, in the three ways it can end. -/
theorem stringServiceInProgressGoesOn : Obligations.StringServiceInProgressGoesOn := by
  intro again chars hservice s s₁ p ws hrun hheld hreads
  rw [← putspChars_eq] at hservice
  have hstep := step_string_in_progress hservice hrun hheld
  have hreads' := State.readsCells_setHeld none hreads
  refine ⟨fun s₂ hlen hzero => ?_, fun hlen hwait => ?_, fun hlen => ?_⟩
  · have hzero' : (s₁.setHeld none).memRead (p + BitVec.ofNat 16 ws.length) = some (0x0000#16, s₂.setHeld none) := by
      rw [State.memRead_setHeld, hzero]
      rfl
    exact ⟨_, hstep, (State.scan_ends hreads' hlen hzero').of_released hrun⟩
  · have hwait' : (s₁.setHeld none).memRead (p + BitVec.ofNat 16 ws.length) = none := by
      rw [State.memRead_setHeld, hwait]
      rfl
    exact ⟨_, hstep, (State.scan_held hreads' hlen hwait').of_released hrun⟩
  · exact ⟨_, hstep, (State.scan_trip hreads' hlen).of_released hrun⟩

end Sys2Proof.Machine

/-! ### What every service keeps, and GETC, OUT, IN, HALT (`45_trap.md` rules R151, R152, R154, R156, R158) -/

namespace Sys2Proof.Machine

/-- The six instructions that perform a service. -/
def IsService (i : Instr) : Prop :=
  i = .trapGetc ∨ i = .trapOut ∨ i = .trapPuts ∨ i = .trapIn ∨ i = .trapPutsp ∨ i = .trapHalt

section Services

variable {i : Instr} {s t : State}

/-- The footprint of a service: at most R0, and that only by GETC and IN; RUN only by HALT. -/
theorem service_footprint (hservice : IsService i) (s : State) :
    (instrFootprint i s).flags = false ∧ (instrFootprint i s).store = none ∧
    ((instrFootprint i s).dest = none ∨ (instrFootprint i s).dest = some 0#3 ∧ (i = .trapGetc ∨ i = .trapIn)) ∧
    (i ≠ .trapHalt → (instrFootprint i s).ends = false) := by
  rcases hservice with rfl | rfl | rfl | rfl | rfl | rfl
  · exact ⟨rfl, rfl, .inr ⟨rfl, .inl rfl⟩, fun _ => rfl⟩
  · exact ⟨rfl, rfl, .inl rfl, fun _ => rfl⟩
  · exact ⟨rfl, rfl, .inl rfl, fun _ => rfl⟩
  · exact ⟨rfl, rfl, .inr ⟨rfl, .inr rfl⟩, fun _ => rfl⟩
  · exact ⟨rfl, rfl, .inl rfl, fun _ => rfl⟩
  · exact ⟨rfl, rfl, .inl rfl, fun hhalt => absurd rfl hhalt⟩

theorem service_pc (hservice : IsService i) (hexec : exec i s = .next t) : t.pc = s.pc := by
  have hscan (chars : Word → List Byte) (again : Word → Held) (n : Nat) (p : Word) :
      (State.scan chars again n p s).pc = s.pc := by
    obtain ⟨-, hpc, -⟩ := State.scan_frame chars again n p s
    exact hpc
  rcases hservice with rfl | rfl | rfl | rfl | rfl | rfl <;> cases hexec
  · obtain ⟨hpc, -⟩ := State.getc_frame s
    exact hpc
  · rfl
  · exact hscan _ _ _ _
  · obtain ⟨hpc, -⟩ := State.inEcho_frame (s.emit inPrompt)
    exact hpc
  · exact hscan _ _ _ _
  · rfl

end Services

/-- Settles O58: the footprint of a service bounds registers, COND, memory and RUN; every instruction appends to OUT at most
and takes the slot's character at most. -/
theorem trapServicesKeepEverythingElse : Obligations.TrapServicesKeepEverythingElse := by
  intro i s t hservice hexec
  have hwithin := exec_within hexec
  have hout := (kept_outputExtends s).exec hexec List.prefix_rfl
  obtain ⟨harrivals, hkbd⟩ := (kept_slotKeptOrTaken s).exec hexec ⟨rfl, .inl rfl⟩
  obtain ⟨hflags, hstore, hdest, hends⟩ := service_footprint hservice s
  have hmem : t.mem = s.mem := hwithin.mem.resolve_right fun ⟨a, v, hav, _⟩ => by
    rw [hstore] at hav
    cases hav
  refine ⟨fun q hq => hwithin.reg q ?_, fun hgetc hin q => hwithin.reg q ?_, service_pc hservice hexec,
    hwithin.cond hflags, State.sameMem_of_mem_eq hmem, hout, fun hhalt => hwithin.run (hends hhalt), hkbd, harrivals⟩
  · rcases hdest with hnone | ⟨hr0, -⟩
    · simp [hnone]
    · simpa [hr0] using hq.symm
  · rcases hdest with hnone | ⟨-, rfl | rfl⟩
    · simp [hnone]
    · exact absurd rfl hgetc
    · exact absurd rfl hin

/-- A service that answers a character answers it in R0, zero-extended. -/
theorem State.setReg_trapReg_zext (s : State) (c : Byte) :
    ((s.setReg trapReg (zext c)).reg 0#3).toNat = c.toNat ∧ s.SameRegsBut 0#3 (s.setReg trapReg (zext c)) := by
  refine ⟨?_, fun q hq => ?_⟩
  · rw [State.setReg_reg, trapReg, if_pos rfl, toNat_zext (by decide)]
  · rw [State.setReg_reg, trapReg, if_neg hq]

/-- Settles O45: GETC takes the character, and that is all (decisions D14 to D16). -/
theorem getcPutsTheCharacterInR0 : Obligations.GetcPutsTheCharacterInR0 := by
  intro s c hfull
  obtain ⟨hr0, hregs⟩ := State.setReg_trapReg_zext (s.setKbd none) c
  exact ⟨_, congrArg Host.Outcome.next (State.getc_full hfull), hr0, hregs, rfl, rfl, fun _ => rfl, rfl, rfl, rfl, rfl, rfl⟩

theorem State.emit_writes (s : State) (l : List Byte) : State.Writes l s.kbd s.held s (s.emit l) :=
  ⟨rfl, fun _ => rfl, rfl, rfl, fun _ => rfl, rfl, rfl, rfl, rfl⟩

/-- Settles O46: the low byte of R0 is its value modulo 256. -/
theorem outAppendsTheLowByteOfR0 : Obligations.OutAppendsTheLowByteOfR0 := by
  intro s
  have hbyte : ((s.reg 0#3).extractLsb' 0 8).toNat = (s.reg 0#3).toNat % 256 := by
    rw [BitVec.extractLsb'_toNat, Nat.shiftRight_zero]
  exact ⟨_, (s.reg 0#3).extractLsb' 0 8, rfl, hbyte, s.emit_writes _⟩

/-- Settles O50: the prompt does not touch the slot, and the echo follows it (decisions D14 to D17). -/
theorem inPromptsEchoesAndPutsTheCharacterInR0 : Obligations.InPromptsEchoesAndPutsTheCharacterInR0 := by
  intro s c hfull
  obtain ⟨hr0, hregs⟩ := State.setReg_trapReg_zext (((s.emit inPrompt).setKbd none).emit [c]) c
  have hecho := State.inEcho_full (s := s.emit inPrompt) hfull
  exact ⟨_, congrArg Host.Outcome.next hecho, rfl, hr0, hregs, rfl, rfl, fun _ => rfl, rfl, rfl, rfl, rfl⟩

/-- Settles O51: HALT is its message and the end of the run, with PC as the fetch left it (decision D25). -/
theorem haltWritesTheMessageAndHalts : Obligations.HaltWritesTheMessageAndHalts := by
  intro s
  exact ⟨_, rfl, rfl, rfl, fun _ => rfl, rfl, rfl, fun _ => rfl, rfl, rfl, rfl⟩

end Sys2Proof.Machine

/-! ### The illegal instructions (`46_illegal.md` rules R170, R171, `45_trap.md` rule R157, `60_exceptions.md` rule R184) -/

namespace Sys2Proof.Machine

/-- The exception is a write of RUN: the record replaces it, and no other part of the state moves (rules R181, R184). -/
theorem exec_illegal_faults_frame {i : Instr} {cause : Cause} (h : illegalCause i = some cause) (s : State) :
    ∃ t, exec i s = .next t ∧ t.run = .faulted cause (s.pc - 1#16) (encode i) ∧
      s.SameRegs t ∧ t.pc = s.pc ∧ t.cond = s.cond ∧ s.SameMem t ∧
      t.kbd = s.kbd ∧ t.out = s.out ∧ t.held = s.held ∧ t.arrivals = s.arrivals := by
  refine ⟨s.raiseIllegal cause (encode i), exec_of_illegalCause h s, ?_⟩
  rw [State.raiseIllegal_eq]
  exact ⟨State.setRun_run _ _, State.setRun_reg _ _, State.setRun_pc _ _, State.setRun_cond _ _, State.setRun_cell _ _,
    State.setRun_kbd _ _, State.setRun_out _ _, State.setRun_held _ _, State.setRun_arrivals _ _⟩

/-- Settles O52: the three illegal rows raise IllegalOpcode, each with its cause and the word it encodes to, which has every
bit of the instruction (decisions D19, D20, D27; log 17). -/
theorem illegalOpcodeRecordsAndStops : Obligations.IllegalOpcodeRecordsAndStops := by
  refine ⟨fun ignored => ?rti, fun ignored => ?reserved, fun ignored vect => ?badTrapVector⟩
  case rti => exact exec_illegal_faults_frame (i := .rti ignored) rfl
  case reserved => exact exec_illegal_faults_frame (i := .reserved ignored) rfl
  case badTrapVector => exact exec_illegal_faults_frame (i := .trapUndefined ignored vect) rfl

end Sys2Proof.Machine
